-- ==== Sys2Proof/Word.lean ====
section
/-! DEFINITION. The bit-vector types of the block. Only what the spec treats as bits is a bit vector:
packed words, command packets and the bytes of the buffer (spec/00_scope.md R9, R11). -/

namespace Sys2Proof

/-- One byte of the buffer space, 8 bits (R25). -/
abbrev Byte := BitVec 8

/-- One packed sum, `HALF_W` = 16 bits (R9, R17). -/
abbrev Half := BitVec 16

/-- A 32-bit word: the accumulator (`ACC_W`), an operand (`OPERAND_W`), a VALUE result (`VALUE_W`) (R9). -/
abbrev Word := BitVec 32

/-- A 96-bit command packet, bit 0 the least significant bit of W0 (R37). -/
abbrev Packet := BitVec 96

end Sys2Proof
end

