-- ==== Sys2Proof/Config.lean ====
section
/-! DEFINITION. The parameters of R9 (spec/00_scope.md section 4). The spec fixes every one of them
("No parameter is left open to the model"), so this file holds no free value. The four widths
`ACC_W`, `HALF_W`, `OPERAND_W` and `VALUE_W` are also the widths of the types in Sys2Proof/Word.lean;
a test says that the two agree. -/

namespace Sys2Proof.Config

/-- `ACC_W`: width of the accumulator in bits (R9). -/
def accW : Nat := 32

/-- `HALF_W`: width of each of s1 and s2 inside the accumulator (R9). -/
def halfW : Nat := 16

/-- `MOD`: the modulus of both sums (R9). -/
def modulus : Nat := 65521

/-- `S1_INIT` (R9). -/
def s1Init : Nat := 1

/-- `S2_INIT` (R9). -/
def s2Init : Nat := 0

/-- `ACC_INIT`: the packed initial value (R9, R19). -/
def accInit : Word := 0x00000001#32

/-- `BATCH`: the most bytes the engine sums before it reduces (R9, R51). -/
def batch : Nat := 3800

/-- `ENG_W`: width of the engine's unreduced sums, unsigned (R9, R51). -/
def engW : Nat := 32

/-- `BYTE_MASK`: the significant bits of an update_byte operand (R9, R39). -/
def byteMask : Word := 0x000000FF#32

/-- `OPERAND_W`: width of the offset, count and data operands (R9, R39; decision D5 of the spec). -/
def operandW : Nat := 32

/-- `BUF_LEN_MAX` = 2^31 - 1: the largest buffer length the port presents (R9, R26; decision D10). -/
def bufLenMax : Nat := 2147483647

/-- `VALUE_W`: width of the word VALUE returns (R9, R41; decision D9). -/
def valueW : Nat := 32

end Sys2Proof.Config
end

