-- ==== Sys2Proof/Syntax.lean ====
section
/-! DEFINITION. The commands of the block, one constructor per row of spec/opcode_table.json (R36, R38).
Operands are what R39 makes of the packet's words: the data word of UPDATE_BYTE stays a word,
since only some of its bits count; offset and count are signed integers. The buffer operand of
UPDATE_RANGE is no part of a packet (R43): it stands on the buffer port, in State. -/

namespace Sys2Proof

/-- A decoded command. -/
inductive Instr where
  /-- RESET (R44): the accumulator takes its initial value. -/
  | reset
  /-- VALUE (R45): returns the packed accumulator. -/
  | value
  /-- UPDATE_BYTE (R47): folds in the low 8 bits of the data word W1. -/
  | updateByte (data : Word)
  /-- UPDATE_RANGE (R49): folds in `count` bytes of the presented buffer from index `offset`. -/
  | updateRange (offset count : Int)
  deriving DecidableEq, Repr

end Sys2Proof
end

