-- ==== Sys2Proof/WellFormed.lean ====
section
/-! DEFINITION. Which commands a packet can carry. Offset and count are 32-bit two's complement
operands (R39), so a command whose offset or count lies outside [-2^31, 2^31 - 1] has no packet: the
assembler refuses it (R43). RESET, VALUE and UPDATE_BYTE have no operand that could be ill formed. -/

namespace Sys2Proof

/-- `v` is a value of `sint32` (R11, R39): -2^(OPERAND_W - 1) ≤ v < 2^(OPERAND_W - 1). -/
abbrev IsSint32 (v : Int) : Prop := -2147483648 ≤ v ∧ v ≤ 2147483647

/-- The check: the command has a packet (R39, R43). -/
def Instr.wellFormed (i : Instr) : Bool :=
  match i with
  | .reset => true
  | .value => true
  | .updateByte _ => true
  | .updateRange offset count => decide (IsSint32 offset) && decide (IsSint32 count)

/-- The command has a packet. -/
abbrev Instr.WellFormed (i : Instr) : Prop := i.wellFormed = true

end Sys2Proof
end

