-- ==== Sys2Proof/Decode.lean ====
section
/-! DEFINITION. From command packets to commands and back (spec/30_encoding.md). Every 96-bit packet
decodes to exactly one command (R40), so `decode` is total without a refusal; what is refused, by
name, is a sequence of words that is no packet (R42: every packet is 96 bits, three words). -/

namespace Sys2Proof

/-- W0, packet bits [31:0] (R37). -/
def packetW0 (p : Packet) : Word := p.extractLsb' 0 32

/-- W1, packet bits [63:32]: `opA` (R37). -/
def packetW1 (p : Packet) : Word := p.extractLsb' 32 32

/-- W2, packet bits [95:64]: `opB` (R37). -/
def packetW2 (p : Packet) : Word := p.extractLsb' 64 32

/-- The `op` field, W0[1:0] (R37, R38). -/
def packetOp (p : Packet) : BitVec 2 := (packetW0 p).extractLsb' 0 2

/-- `{W2, W1, W0}` (R37). -/
def packetOf (w0 w1 w2 : Word) : Packet := w2 ++ w1 ++ w0

/-- `sint32(w)`: a word read as a two's complement integer (R11). -/
def sint32 (w : Word) : Int := w.toInt

/-- The 32-bit two's complement pattern of an integer (R43: "packed into W1 as its 32-bit two's
complement"). -/
def word32 (v : Int) : Word := BitVec.ofInt 32 v

/-- The decoder: `op` alone selects the command (R38), the operands are assembled as R39 says, and no
other bit is looked at (R40). -/
def decode (p : Packet) : Instr :=
  match (packetOp p).toFin with
  | 0 => .reset
  | 1 => .value
  | 2 => .updateByte (packetW1 p)
  | 3 => .updateRange (sint32 (packetW1 p)) (sint32 (packetW2 p))

/-- Why a sequence of words is no command packet. -/
inductive DecodeError where
  /-- Fewer than three words: no packet is shorter than 96 bits (R42). -/
  | tooShort
  /-- More than three words: no packet is longer than 96 bits (R42). -/
  | tooLong
  deriving DecidableEq, Repr

/-- The decoder on a sequence of words W0, W1, W2: total, and it rejects any other length by name. -/
def decodeWords (ws : List Word) : Except DecodeError Instr :=
  match ws with
  | [w0, w1, w2] => .ok (decode (packetOf w0 w1 w2))
  | _ :: _ :: _ :: _ :: _ => .error .tooLong
  | _ => .error .tooShort

/-- The encoder: the packet of a command, every ignored field written as zero as R40 asks of software
(the whole data word of UPDATE_BYTE is its operand, R37, and is kept; DEDUCED, log entry 13). -/
def encode (i : Instr) : Packet :=
  match i with
  | .reset => packetOf 0x00000000#32 0#32 0#32
  | .value => packetOf 0x00000001#32 0#32 0#32
  | .updateByte data => packetOf 0x00000002#32 data 0#32
  | .updateRange offset count => packetOf 0x00000003#32 (word32 offset) (word32 count)

/-- Bits `nbits - 1` to 0 of `w` as a packet, every bit above them 0. -/
def tablePacket (nbits w : Nat) : Packet := BitVec.ofNat 96 (w % 2 ^ nbits)

/-- The words of an instruction of the opcode table: three, and one more for every further 32 bits
that a row of more than 96 bits would have (no row has; DEDUCED, log entry 13). -/
def tableWords (nbits w : Nat) : List Word :=
  let p := tablePacket nbits w
  [packetW0 p, packetW1 p, packetW2 p] ++ List.replicate ((nbits - 96 + 31) / 32) 0#32

/-- The command the decoder reads from an instruction of `nbits` bits `w`, numbered as
spec/opcode_table.json numbers them (bit 0 the least significant bit of W0, R37). -/
def decodeTableWord (nbits w : Nat) : Option Instr :=
  match decodeWords (tableWords nbits w) with
  | .ok i => some i
  | .error _ => none

end Sys2Proof
end

