-- ==== Sys2Proof/Machine/State.lean ====
section
/-! DEFINITION. The state of the block, and how a step can stop.

The block's own state is ONE register, `acc` (spec/10_state.md R14, R16, R24). The other three fields
are the model's: R14 calls the command packets, the buffer and the order of commands "inputs of a step",
and R75 calls the responses the run's observation. `Host.Core.step` takes a state and nothing else, so
the inputs stand in State as plain data (DESIGN CHOICE, log entry 1) and so do the responses
(DESIGN CHOICE, log entry 3). -/

namespace Sys2Proof.Machine

/-- The contents of a buffer: (index, byte) pairs in the canonical form `Memory.wf`
(Sys2Proof/Machine/Ops.lean). -/
abbrev Memory := List Host.Cell

/-- What the host presents on the buffer port with a command (R25, R26): the descriptor and a snapshot
of the contents at issue (R33). -/
structure Buffer where
  /-- `BUF_PRESENT`: false when the buffer reference is absent. -/
  present : Bool
  /-- `BUF_LEN`, in [0, BUF_LEN_MAX]. It means something only when `present` holds (DEDUCED, log entry 14). -/
  len : Fin (Config.bufLenMax + 1)
  /-- The bytes at indices below `len`. -/
  bytes : Memory
  deriving DecidableEq, Repr

/-- The port with no buffer on it: `BUF_PRESENT` = 0, the assembler's `NULL` (R43). -/
def Buffer.absent : Buffer := { present := false, len := 0, bytes := [] }

/-- A command as the host issues it (R36): the packet and, for UPDATE_RANGE, the buffer. The other
three commands ignore the buffer (R26). -/
structure Command where
  packet : Packet
  buffer : Buffer
  deriving DecidableEq, Repr

/-- The status of a response (R41). The fourth code, 0b11, is never produced and so has no constructor. -/
inductive Status where
  | ok
  | invalidArgument
  | outOfRange
  deriving DecidableEq, Repr

/-- The response to one command (R41). -/
structure Response where
  status : Status
  rdata : Word
  deriving DecidableEq, Repr

/-- The block and what the host has handed it and got back. -/
structure State where
  /-- `ACC` (R16): S2 in bits [31:16], S1 in bits [15:0] (R17). The one register of the block. -/
  acc : Word
  /-- The buffer port as sampled when the last command was issued (R26). An input, not state of the
  block: every issue overwrites it (DESIGN CHOICE, log entry 15). -/
  buffer : Buffer
  /-- The commands the host has still to issue, in issue order (R20, R75). -/
  stream : List Command
  /-- The responses given so far, oldest first (R36, R75). No command reads them (R21). -/
  responses : List Response
  deriving DecidableEq, Repr

/-- How a step can stop with a fault. -/
inductive Fault where
  /-- The engine of UPDATE_RANGE asked for a byte at an index that is not in the buffer space
  (R25 gives MemRead no meaning there). Raised by `execUpdateRange` alone. SAFE: the model stops.
  Validation keeps it from ever happening (R27), which is a statement of the package (DESIGN CHOICE, log entry 11). -/
  | outsideBuffer
  deriving DecidableEq, Repr

/-- How a step can be refused. -/
inductive Refusal where
  /-- The command has no meaning in the model yet. Raised by arms of `exec` alone; no arm does so now.
  SAFE: the model stops. -/
  | notModelled (mnemonic : String)
  deriving DecidableEq, Repr

/-- Power-on reset (R68): `ACC` is 0x0000_0001 (R19), no command is in progress and no response is
pending. The port holds no buffer and the host has issued nothing (the inputs' values at reset: DESIGN
CHOICE, log entry 2). -/
def State.reset : State :=
  { acc := Config.accInit, buffer := Buffer.absent, stream := [], responses := [] }

end Sys2Proof.Machine
end

