-- ==== Sys2Proof/Machine/Ops.lean ====
section
/-! DEFINITION. The operations that meanings are made of: the accumulator and its halves, the buffer
space, responding, raising an error, and the issue of a command. -/

namespace Sys2Proof.Machine

/-! ### The packed accumulator (R16, R17) -/

/-- `S1 = ACC[15:0]` (R12, R17). -/
def lowHalf (acc : Word) : Half := acc.extractLsb' 0 16

/-- `S2 = ACC[31:16]` (R12, R17). -/
def highHalf (acc : Word) : Half := acc.extractLsb' 16 16

/-- `{s2, s1} = (s2 << 16) | s1` (R11, R17). -/
def pack (s2 s1 : Half) : Word := s2 ++ s1

/-- `S1` of the machine (R12). -/
def State.s1 (s : State) : Half := lowHalf s.acc

/-- `S2` of the machine (R12). -/
def State.s2 (s : State) : Half := highHalf s.acc

/-- `ACC <- v` (R12): the one operation that writes the accumulator. -/
def State.setAcc (v : Word) (s : State) : State := { s with acc := v }

/-! ### The buffer space (R25 to R28)

The block only reads it: no rule uses MemWrite (R28), so there is no write here. -/

/-- What an index that is not listed reads as. The spec says nothing of listings: a listing that leaves
the zero bytes out is this model's one way of writing a buffer's contents down (DESIGN CHOICE, log entry 4). -/
def unlistedByte : Byte := 0x00#8

/-- The byte at an index of a listing. -/
def Memory.read (m : Memory) (i : Nat) : Byte :=
  match m with
  | [] => unlistedByte
  | (a, b) :: rest => if a = i then b else Memory.read rest i

/-- Every listed index is at least `low`, indices rise strictly, and no listed byte is what an unlisted
index reads as. -/
def Memory.wfFrom (low : Nat) (m : Memory) : Bool :=
  match m with
  | [] => true
  | (a, b) :: rest => decide (low ≤ a) && decide (b ≠ unlistedByte) && Memory.wfFrom (a + 1) rest

/-- The canonical form of a listing. -/
def Memory.wf (m : Memory) : Bool := Memory.wfFrom 0 m

/-- Every listed index lies below `bound`. -/
def Memory.below (bound : Nat) (m : Memory) : Bool := m.all fun cell => decide (cell.1 < bound)

/-- A buffer as the port may present it (R25, R26): the contents are canonical and no byte stands at an
index outside [0, BUF_LEN - 1]. -/
def Buffer.wf (b : Buffer) : Bool := Memory.wf b.bytes && Memory.below b.len.val b.bytes

/-- The listing of a byte sequence laid out from index `base`, in canonical form. -/
def Memory.ofBytes (base : Nat) (bs : List Byte) : Memory :=
  match bs with
  | [] => []
  | b :: rest =>
    if b = unlistedByte then Memory.ofBytes (base + 1) rest
    else (base, b) :: Memory.ofBytes (base + 1) rest

/-- The buffer that holds a byte sequence no longer than BUF_LEN_MAX (R26, R43: `name[len]`). -/
def Buffer.ofBytes (bs : List Byte) (h : bs.length ≤ Config.bufLenMax) : Buffer :=
  { present := true, len := ⟨bs.length, Nat.lt_succ_of_le h⟩, bytes := Memory.ofBytes 0 bs }

/-- `MemRead(i, 1)` (R12, R25): the byte at index `i`, for 0 ≤ i < BUF_LEN of a buffer that is present;
nothing elsewhere. Reading changes nothing (R31). -/
def Buffer.memRead (b : Buffer) (i : Nat) : Option Byte :=
  if b.present = true ∧ i < b.len.val then some (b.bytes.read i) else none

/-! ### Responses and errors (R41, R59 to R62) -/

/-- The 2-bit code of a status (R41; the values are the spec's decision D7). -/
def Status.code (st : Status) : BitVec 2 :=
  match st with
  | .ok => 0b00#2
  | .invalidArgument => 0b01#2
  | .outOfRange => 0b10#2

/-- The status a host reads from a code; 0b11 is none (R41). -/
def Status.ofCode (c : BitVec 2) : Option Status :=
  if c = 0b00#2 then some .ok
  else if c = 0b01#2 then some .invalidArgument
  else if c = 0b10#2 then some .outOfRange
  else none

/-- The 64-bit host view of a response's data, `zext_64(rdata)` (R41; decision D9). -/
def Response.view64 (r : Response) : BitVec 64 := r.rdata.setWidth 64

/-- `respond(status, rdata)` (R12): the current command completes with that response. -/
def State.respond (st : Status) (rdata : Word) (s : State) : State :=
  { s with responses := s.responses ++ [{ status := st, rdata := rdata }] }

/-- The two kinds of error (R60). -/
inductive Error where
  | invalidArgument
  | outOfRange
  deriving DecidableEq, Repr

/-- The status that reports an error (R60). -/
def Error.status (e : Error) : Status :=
  match e with
  | .invalidArgument => .invalidArgument
  | .outOfRange => .outOfRange

/-- `raise <Error>()` (R62), the block's only form of exception: the command ends with the error's status
and rdata 0, and nothing else changes. The block has no trap (R59), so nothing is saved and control goes
nowhere; and there is no return from one (R63): the next command finds the block as after any response. -/
def State.raise (e : Error) (s : State) : State := s.respond e.status 0#32

/-! ### The issue of a command (R20, R36, R71) -/

/-- The host issues its next command, if it has one: the packet, and the block with the command's buffer
sampled on its port (R26). -/
def State.issue (s : State) : Option (Packet × State) :=
  match s.stream with
  | [] => none
  | c :: rest => some (c.packet, { s with buffer := c.buffer, stream := rest })

/-- Between commands the block is idle and keeps `ACC` (R64: "Nothing happens in the block except in
response to a command"; R67. That this is a step at all: DESIGN CHOICE, log entry 2). -/
def State.idle (s : State) : State := s

end Sys2Proof.Machine
end

