-- ==== Sys2Proof/Machine/Operands.lean ====
section
/-! DEFINITION. The operands of the commands, as R39 assembles them. Offset and count come out of
the decoder as integers (`sint32`, Sys2Proof/Decode.lean); what is left is the byte of UPDATE_BYTE, the
indices of UPDATE_RANGE, and the engine's zero extensions. -/

namespace Sys2Proof.Machine

/-- The byte of UPDATE_BYTE, `W1[7:0]`: the higher bits of the data word are ignored (R39, R47). -/
def dataByte (data : Word) : Byte := data.extractLsb' 0 8

/-- The buffer index of an offset, and the number of bytes of a count, once validation has shown them not
to be negative (R50). -/
def indexOf (v : Int) : Nat := v.toNat

/-- `zext_w` of a byte (R11). -/
def zextByte (w : Nat) (b : Byte) : BitVec w := b.setWidth w

/-- `zext_w` of a half of the accumulator (R11, R51). -/
def zextHalf (w : Nat) (h : Half) : BitVec w := h.setWidth w

end Sys2Proof.Machine
end

