-- ==== Sys2Proof/Machine/Flags.lean ====
section
/-! DEFINITION. The block has no flags, condition codes or predicates (R21), so this file computes
none. The one thing a command finds out about its operands is whether UPDATE_RANGE accepts them; it
is reported in the response and not stored. -/

namespace Sys2Proof.Machine

/-- `validate` (R50): the first check that applies, in the order written, over unbounded integers
(R57). `none` when the command passes. -/
def validate (buf : Buffer) (offset count : Int) : Option Error :=
  if buf.present = false then some .invalidArgument
  else if offset < 0 then some .outOfRange
  else if count < 0 then some .outOfRange
  else if offset ≥ buf.len.val then some .outOfRange
  else if offset + count > buf.len.val then some .outOfRange
  else none

end Sys2Proof.Machine
end

