-- ==== Sys2Proof/Machine/Updater.lean ====
section
/-! DEFINITION. The modular-sum updater (spec/40_accumulator_ops.md section 3). -/

namespace Sys2Proof.Machine

/-- `s1' = (s1 + b) mod 65521` (R46). -/
def nextS1 (s1 : Half) (b : Byte) : Nat := (s1.toNat + b.toNat) % Config.modulus

/-- `s2' = (s2 + s1') mod 65521` (R46): it uses the NEW s1. -/
def nextS2 (s2 : Half) (s1' : Nat) : Nat := (s2.toNat + s1') % Config.modulus

/-- `upd(acc, b)` (R46). -/
def upd (acc : Word) (b : Byte) : Word :=
  let s1' := nextS1 (lowHalf acc) b
  let s2' := nextS2 (highHalf acc) s1'
  pack (BitVec.ofNat 16 s2') (BitVec.ofNat 16 s1')

end Sys2Proof.Machine
end

