-- ==== Sys2Proof/Machine/Engine.lean ====
section
/-! DEFINITION. The batch-modulo-reduction engine (spec/41_range_engine.md section 3), written as R51
writes it. Its run length and the width of its sums are arguments, because R10 and R58 speak of other
engines; this hardware's engine is `engine`, with BATCH = 3800 and ENG_W = 32. -/

namespace Sys2Proof.Machine

/-- The engine's working sums `RS1` and `RS2`, unsigned. They exist only inside one command (R22). -/
structure Sums (w : Nat) where
  rs1 : BitVec w
  rs2 : BitVec w
  deriving DecidableEq, Repr

/-- `RS1 <- RS1 + b; RS2 <- RS2 + RS1`, both adds unsigned and of width `w` (R51). -/
def Sums.addByte {w : Nat} (r : Sums w) (b : Byte) : Sums w :=
  let rs1 := r.rs1 + zextByte w b
  { rs1 := rs1, rs2 := r.rs2 + rs1 }

/-- `RS1 <- RS1 mod 65521; RS2 <- RS2 mod 65521` (R51). -/
def Sums.reduce {w : Nat} (r : Sums w) : Sums w :=
  { rs1 := r.rs1 % BitVec.ofNat w Config.modulus, rs2 := r.rs2 % BitVec.ofNat w Config.modulus }

/-- "repeat n times" of R51: read the byte at `i`, add it, go on at `i + 1`. `none` when a read leaves the
buffer space. -/
def sumRun {w : Nat} (buf : Buffer) (n i : Nat) (r : Sums w) : Option (Sums w) :=
  match n with
  | 0 => some r
  | n + 1 =>
    match buf.memRead i with
    | some b => sumRun buf n (i + 1) (r.addByte b)
    | none => none

/-- "while rem > 0" of R51. Each turn takes a run of `min(batch, rem)` bytes and reduces. The loop turns at
most `rem` times when `batch` is not 0, so `fuel` = `rem` is enough; out of fuel it answers `none` (DESIGN CHOICE,
log entry 12). -/
def runLoop {w : Nat} (batch : Nat) (buf : Buffer) (fuel rem i : Nat) (r : Sums w) : Option (Sums w) :=
  match fuel with
  | 0 => if rem = 0 then some r else none
  | fuel + 1 =>
    if rem = 0 then some r
    else
      match sumRun buf (min batch rem) i r with
      | some r' => runLoop batch buf fuel (rem - min batch rem) (i + min batch rem) r'.reduce
      | none => none

/-- `RS1 <- zext(ACC[15:0]); RS2 <- zext(ACC[31:16])` (R51). -/
def Sums.ofAcc (w : Nat) (acc : Word) : Sums w :=
  { rs1 := zextHalf w (lowHalf acc), rs2 := zextHalf w (highHalf acc) }

/-- `(RS2 << 16) | RS1`, of sums that fit 16 bits (R51, R11). -/
def Sums.toAcc {w : Nat} (r : Sums w) : Word := pack (r.rs2.setWidth 16) (r.rs1.setWidth 16)

/-- An engine with run length `batch` and unsigned width `w` (R51, R58). -/
def engineWith (batch w : Nat) (buf : Buffer) (acc : Word) (offset count : Nat) : Option Word :=
  match runLoop batch buf count count offset (Sums.ofAcc w acc) with
  | some r => some r.toAcc
  | none => none

/-- This hardware's engine (R51): greedy runs of at most `BATCH` bytes, 32-bit unsigned sums. -/
def engine (buf : Buffer) (acc : Word) (offset count : Nat) : Option Word :=
  engineWith Config.batch Config.engW buf acc offset count

end Sys2Proof.Machine
end

