-- ==== Sys2Proof/Machine/Accumulator.lean ====
section
/-! DEFINITION. The meanings of the three commands that never fail (spec/40_accumulator_ops.md). -/

namespace Sys2Proof.Machine

/-- RESET (R44). -/
def execReset (s : State) : Host.Outcome State Fault Refusal :=
  .next ((s.setAcc Config.accInit).respond .ok 0#32)

/-- VALUE (R45). -/
def execValue (s : State) : Host.Outcome State Fault Refusal :=
  .next (s.respond .ok s.acc)

/-- UPDATE_BYTE (R47). -/
def execUpdateByte (data : Word) (s : State) : Host.Outcome State Fault Refusal :=
  .next ((s.setAcc (upd s.acc (dataByte data))).respond .ok 0#32)

end Sys2Proof.Machine
end

