-- ==== Sys2Proof/Machine/Range.lean ====
section
/-! DEFINITION. The meaning of UPDATE_RANGE (spec/41_range_engine.md section 1). -/

namespace Sys2Proof.Machine

/-- UPDATE_RANGE (R49): validate; on an error raise it, with `ACC` unchanged and no byte read (R62); else
fold the range in. -/
def execUpdateRange (offset count : Int) (s : State) : Host.Outcome State Fault Refusal :=
  match validate s.buffer offset count with
  | some e => .next (s.raise e)
  | none =>
    match engine s.buffer s.acc (indexOf offset) (indexOf count) with
    | some acc => .next ((s.setAcc acc).respond .ok 0#32)
    | none => .fault .outsideBuffer

end Sys2Proof.Machine
end

