-- ==== Sys2Proof/Machine/Dispatch.lean ====
section
/-! DEFINITION. One arm per command of spec/opcode_table.json. -/

namespace Sys2Proof.Machine

def exec (i : Instr) (s : State) : Host.Outcome State Fault Refusal :=
  match i with
  | .reset => Sys2Proof.Machine.execReset s
  | .value => Sys2Proof.Machine.execValue s
  | .updateByte data => Sys2Proof.Machine.execUpdateByte data s
  | .updateRange offset count => Sys2Proof.Machine.execUpdateRange offset count s

end Sys2Proof.Machine
end

