-- ==== Sys2Proof/Machine/Step.lean ====
section
/-! DEFINITION. One step: the host issues its next command and the block runs it to its response, one
atomic transition (R36, R76). The block fetches nothing (R20): the host's command sequence is the
program. Neither a second command during a command nor a change of its buffer is a move of the host here (R71, R72,
R74; log entry 7), and a step takes no time (R76; log entry 9). -/

namespace Sys2Proof.Machine

/-- One command from idle to idle; with no command issued, the block stays as it is (R64, R67). -/
def step (s : State) : Host.Outcome State Fault Refusal :=
  match s.issue with
  | none => .next s.idle
  | some (packet, issued) => exec (decode packet) issued

/-- `s` with the host about to issue, before everything else, the command with packet bits `w` (the bits
above `nbits` zero) and the buffer that stands on the port (log entry 5). -/
def State.withFetchWord (s : State) (nbits w : Nat) : State :=
  { s with stream := { packet := tablePacket nbits w, buffer := s.buffer } :: s.stream }

end Sys2Proof.Machine
end

