-- ==== Sys2Proof/Machine/Assembler.lean ====
section
/-! DEFINITION. The assembler's lines (R43) after they are read: mnemonics are constructors, an integer is
kept with the base it is written in, and the name of a buffer stands for its bytes. The assembler is
host software; it makes the commands that the block then runs. How a line is spelt (spaces, comments, the
letters of a name) never reaches the block and is left out (log entry 6). -/

namespace Sys2Proof.Machine

/-- An integer as written (R43). -/
inductive Literal where
  /-- A decimal integer, with its sign. -/
  | dec (v : Int)
  /-- A `0x` hex integer: "its 32-bit pattern". -/
  | hex (digits : Nat)
  deriving DecidableEq, Repr

/-- The `<buf>` operand (R43). -/
inductive BufOperand where
  /-- `NULL`. -/
  | null
  /-- `name[len]`, a byte sequence of length `len`. -/
  | named (bytes : List Byte)
  deriving DecidableEq, Repr

/-- One line of assembly (R43). There are no pseudo-instructions. -/
inductive Line where
  | reset
  | value
  | updateByte (data : Literal)
  | updateRange (offset count : Literal) (buf : BufOperand)
  deriving DecidableEq, Repr

/-- The word of a literal. A decimal integer outside [-2^31, 2^31 - 1] is refused, and so is a hex literal
that is no 32-bit pattern (R43). -/
def Literal.word (l : Literal) : Option Word :=
  match l with
  | .dec v => if IsSint32 v then some (word32 v) else none
  | .hex digits => if digits < 4294967296 then some (BitVec.ofNat 32 digits) else none

/-- The buffer a `<buf>` operand presents; a sequence longer than BUF_LEN_MAX cannot be presented (R26). -/
def BufOperand.buffer (b : BufOperand) : Option Buffer :=
  match b with
  | .null => some Buffer.absent
  | .named bytes =>
    if h : bytes.length ≤ Config.bufLenMax then some (Buffer.ofBytes bytes h) else none

/-- The command of an instruction presented with a buffer. -/
def Command.of (i : Instr) (buf : Buffer) : Command := { packet := encode i, buffer := buf }

/-- A line assembled, or `none` when the assembler refuses it (R43). A command that takes no buffer is
issued with none on the port; it would ignore one (R26). -/
def assemble (line : Line) : Option Command :=
  match line with
  | .reset => some (Command.of .reset Buffer.absent)
  | .value => some (Command.of .value Buffer.absent)
  | .updateByte data =>
    match data.word with
    | some w1 => some (Command.of (.updateByte w1) Buffer.absent)
    | none => none
  | .updateRange offset count buf =>
    match offset.word, count.word, buf.buffer with
    | some w1, some w2, some b => some (Command.of (.updateRange (sint32 w1) (sint32 w2)) b)
    | _, _, _ => none

end Sys2Proof.Machine
end

