-- ==== Sys2Proof/Safety.lean ====
section
/-! DEFINITION. What a safe run is, and the words the statements use. -/

namespace Sys2Proof.Machine

/-- The invariant of R18: both sums packed in the word are below 65521. What commands do to a word that is not
reduced is the model's, not the spec's (DESIGN CHOICE, log entry 10). -/
abbrev Reduced (acc : Word) : Prop :=
  (lowHalf acc).toNat < Config.modulus ∧ (highHalf acc).toNat < Config.modulus

/-- The invariant of the machine: `ACC` is reduced (R18), every buffer is one the port may present (R26),
and every response given carries a reduced word, which is 0 when the command failed (R41). -/
structure State.Inv (s : State) : Prop where
  acc_reduced : Reduced s.acc
  port_wf : s.buffer.wf = true
  stream_wf : ∀ c ∈ s.stream, c.buffer.wf = true
  rdata_reduced : ∀ r ∈ s.responses, Reduced r.rdata
  rdata_of_error : ∀ r ∈ s.responses, r.status ≠ .ok → r.rdata = 0#32

/-- The five conditions of R50, all passed. -/
abbrev Accepted (buf : Buffer) (offset count : Int) : Prop :=
  buf.present = true ∧ 0 ≤ offset ∧ 0 ≤ count ∧ offset < buf.len.val ∧ offset + count ≤ buf.len.val

/-- The bytes at indices `i`, …, `i + n - 1` of a buffer, in index order. -/
def Buffer.slice (buf : Buffer) (i n : Nat) : List Byte :=
  match n with
  | 0 => []
  | n + 1 => buf.bytes.read i :: buf.slice (i + 1) n

/-- The updater folded over bytes one at a time (R53). -/
def foldUpd (acc : Word) (bs : List Byte) : Word := bs.foldl upd acc

/-- The sums over unbounded integers, reduced nowhere: what the engine's adds give if none wraps (R52). -/
def exactSums (s1 s2 : Nat) (bs : List Byte) : Nat × Nat :=
  match bs with
  | [] => (s1, s2)
  | b :: rest => exactSums (s1 + b.toNat) (s2 + (s1 + b.toNat)) rest

/-- The bytes a command folds in when a buffer is presented: none for RESET, VALUE and a rejected
UPDATE_RANGE. -/
def fedBytes (i : Instr) (buf : Buffer) : List Byte :=
  match i with
  | .reset => []
  | .value => []
  | .updateByte data => [dataByte data]
  | .updateRange offset count =>
    if Accepted buf offset count then buf.slice offset.toNat count.toNat else []

/-- The bytes an issued command folds in. -/
def Command.feeds (c : Command) : List Byte := fedBytes (decode c.packet) c.buffer

/-- The accumulator a command leaves. -/
def accAfter (i : Instr) (s : State) : Word :=
  match i with
  | .reset => Config.accInit
  | i => foldUpd s.acc (fedBytes i s.buffer)

/-- The response a command gives: OK, but for UPDATE_RANGE the error of `validate`; `rdata` is `ACC` for
VALUE and 0 for every other command (R41). -/
def responseOf (i : Instr) (s : State) : Response :=
  match i with
  | .reset => { status := .ok, rdata := 0#32 }
  | .value => { status := .ok, rdata := s.acc }
  | .updateByte _ => { status := .ok, rdata := 0#32 }
  | .updateRange offset count =>
    match validate s.buffer offset count with
    | some e => { status := e.status, rdata := 0#32 }
    | none => { status := .ok, rdata := 0#32 }

/-- The block runs every command the host has still to issue, one step each (R75). -/
def State.runStream (s : State) : Host.Outcome State Fault Refusal :=
  Host.Core.run Sys2Proof.core s.stream.length s

/-- A run is safe when it comes to its end: no command stops it with a fault or a refusal. -/
def State.RunsSafely (s : State) : Prop := ∃ t, s.runStream = .next t

end Sys2Proof.Machine
end

