-- ==== Sys2Proof/Certificates/Slice0/Obligations.lean ====
section
/-! DEFINITION. The statements for the provers. Each docstring names the rule of spec/ it formalises; where
the spec marks the rule, or a clause of it, as its own inference or decision, the docstring says so. -/

open Sys2Proof Sys2Proof.Machine

/-! ### Encoding -/

/-- R38 (the values of `op` are the spec's decision D4): `op` alone selects the command, and the rows of
spec/opcode_table.json (mask 0x3, match 0 to 3) say the same. -/
def Obligations.SelectorChoosesCommand : Prop :=
  ∀ p : Packet,
    (packetOp p = 0b00#2 ↔ decode p = .reset) ∧
    (packetOp p = 0b01#2 ↔ decode p = .value) ∧
    (packetOp p = 0b10#2 ↔ ∃ data, decode p = .updateByte data) ∧
    (packetOp p = 0b11#2 ↔ ∃ offset count, decode p = .updateRange offset count) ∧
    (p &&& 0x3#96 = 0x0#96 ↔ decode p = .reset) ∧
    (p &&& 0x3#96 = 0x1#96 ↔ decode p = .value) ∧
    (p &&& 0x3#96 = 0x2#96 ↔ ∃ data, decode p = .updateByte data) ∧
    (p &&& 0x3#96 = 0x3#96 ↔ ∃ offset count, decode p = .updateRange offset count)

/-- R39 (the widths are the spec's decision D5): where each operand stands in the packet, that offset and
count are signed, and that bits [31:8] of a data word change nothing. -/
def Obligations.OperandsAreAssembled : Prop :=
  (∀ p : Packet, packetOp p = 0b10#2 →
    decode p = .updateByte (p.extractLsb' 32 32) ∧
    dataByte (p.extractLsb' 32 32) = p.extractLsb' 32 8) ∧
  (∀ p : Packet, packetOp p = 0b11#2 →
    decode p = .updateRange (p.extractLsb' 32 32).toInt (p.extractLsb' 64 32).toInt) ∧
  (∀ w : Word, -2147483648 ≤ sint32 w ∧ sint32 w ≤ 2147483647) ∧
  (∀ data : Word, (dataByte data).setWidth 32 = data &&& 0x000000FF#32) ∧
  (∀ (data data' : Word) (s : State),
    data &&& 0x000000FF#32 = data' &&& 0x000000FF#32 →
      exec (.updateByte data) s = exec (.updateByte data') s)

/-- R40 (the spec's decision D6), whole: every packet decodes to one of the four commands, with no refusal; and no
value of an ignored bit changes any result or raises any error: two packets that agree on `op` and on the bits their
command uses make the same step. -/
def Obligations.IgnoredBitsHaveNoEffect : Prop :=
  (∀ w0 w1 w2 : Word, decodeWords [w0, w1, w2] = .ok (decode (packetOf w0 w1 w2)) ∧
    (decode (packetOf w0 w1 w2) = .reset ∨ decode (packetOf w0 w1 w2) = .value ∨
      decode (packetOf w0 w1 w2) = .updateByte w1 ∨
      decode (packetOf w0 w1 w2) = .updateRange w1.toInt w2.toInt)) ∧
  ∀ (s : State) (p q : Packet) (buf : Buffer) (rest : List Command),
    packetOp p = packetOp q →
    (packetOp p = 0b10#2 → p.extractLsb' 32 8 = q.extractLsb' 32 8) →
    (packetOp p = 0b11#2 → p.extractLsb' 32 64 = q.extractLsb' 32 64) →
      step { s with stream := { packet := p, buffer := buf } :: rest } =
        step { s with stream := { packet := q, buffer := buf } :: rest }

/-- Decode and encode agree: a command that has a packet comes back from its packet, with every operand at
every value a packet can carry (R37 to R39). -/
def Obligations.DecodeUndoesEncode : Prop :=
  ∀ i : Instr, i.WellFormed → decode (encode i) = i

/-- The other direction: what the decoder reads is well formed, and encoding it gives the packet back with `op` and
the operand words of its command kept and every other bit 0. That an UPDATE_BYTE keeps its whole data word, W1[31:8]
too, which R40 lists as ignored, is the model's choice of encoder (DEDUCED, log entry 13). -/
def Obligations.EncodeKeepsOpAndOperandWords : Prop :=
  ∀ p : Packet,
    (decode p).WellFormed ∧
    (packetOp p = 0b00#2 → encode (decode p) = p &&& 0x000000000000000000000003#96) ∧
    (packetOp p = 0b01#2 → encode (decode p) = p &&& 0x000000000000000000000003#96) ∧
    (packetOp p = 0b10#2 → encode (decode p) = p &&& 0x00000000FFFFFFFF00000003#96) ∧
    (packetOp p = 0b11#2 → encode (decode p) = p &&& 0xFFFFFFFFFFFFFFFF00000003#96)

/-- Packets the spec writes out (R43's worked example and 95_test_vectors.md P1, V5a, V11, V14). -/
def Obligations.WrittenOutPacketsDecode : Prop :=
  decode 0x12345678DEADBEEFFFFFFFFC#96 = .reset ∧
  decode 0xFFFFFFFFFFFFFFFFFFFFFFFD#96 = .value ∧
  decode 0x000000000000005700000002#96 = .updateByte 0x00000057#32 ∧
  decode 0x000000090000000000000003#96 = .updateRange 0 9 ∧
  decode 0x00000001FFFFFFFF00000003#96 = .updateRange (-1) 1

/-- R42 (the spec marks it as derived from R37): a packet is three words, never fewer and never more. -/
def Obligations.OnlyThreeWordsArePackets : Prop :=
  ∀ ws : List Word,
    (ws.length < 3 → decodeWords ws = .error .tooShort) ∧
    (3 < ws.length → decodeWords ws = .error .tooLong) ∧
    (ws.length = 3 → ∃ i, decodeWords ws = .ok i)

/-- R43 (the spec's decision D22), for lines already read (log entry 6): an integer in range becomes the 32
bits of its word and one out of range is refused; `NULL` presents no buffer and a name presents its bytes,
each at its index; the packet decodes to the line's command; and the worked example. -/
def Obligations.AssemblerMakesTheCommand : Prop :=
  (∀ v : Int, (-2147483648 ≤ v ∧ v ≤ 2147483647 → ∃ w, (Literal.dec v).word = some w ∧ w.toInt = v) ∧
    (v < -2147483648 ∨ 2147483647 < v → (Literal.dec v).word = none)) ∧
  (∀ n : Nat, n < 4294967296 → ∃ w, (Literal.hex n).word = some w ∧ w.toNat = n) ∧
  (∀ n : Nat, 4294967296 ≤ n → (Literal.hex n).word = none) ∧
  (∀ bs : List Byte, bs.length ≤ Config.bufLenMax → ∃ buf, (BufOperand.named bs).buffer = some buf ∧
    buf.wf = true ∧ buf.present = true ∧ buf.len.val = bs.length ∧ ∀ k : Nat, buf.memRead k = bs[k]?) ∧
  (∀ bs : List Byte, Config.bufLenMax < bs.length → (BufOperand.named bs).buffer = none) ∧
  (∃ buf, BufOperand.null.buffer = some buf ∧ buf.present = false) ∧
  (∃ c, assemble .reset = some c ∧ decode c.packet = .reset) ∧
  (∃ c, assemble .value = some c ∧ decode c.packet = .value) ∧
  (∀ (data : Literal) (w : Word), data.word = some w →
    ∃ c, assemble (.updateByte data) = some c ∧ decode c.packet = .updateByte w) ∧
  (∀ (offset count : Literal) (b : BufOperand) (w1 w2 : Word) (buf : Buffer),
    offset.word = some w1 → count.word = some w2 → b.buffer = some buf →
      ∃ c, assemble (.updateRange offset count b) = some c ∧
        decode c.packet = .updateRange w1.toInt w2.toInt ∧ c.buffer = buf) ∧
  (∀ (data : Literal), data.word = none → assemble (.updateByte data) = none) ∧
  (∀ (offset count : Literal) (b : BufOperand),
    offset.word = none ∨ count.word = none ∨ b.buffer = none → assemble (.updateRange offset count b) = none) ∧
  (∃ c, assemble (.updateByte (.hex 0x57)) = some c ∧ c.packet = 0x000000000000005700000002#96)

/-! ### Reset and the accumulator -/

/-- R19: `ACC` is 0x0000_0001 at construction (S1 = 1, S2 = 0) and after the RESET command. -/
def Obligations.InitialAccumulator : Prop :=
  State.reset.acc = 0x00000001#32 ∧ State.reset.s1 = 1#16 ∧ State.reset.s2 = 0#16 ∧
  ∀ s : State, ∃ t, exec .reset s = .next t ∧ t.acc = 0x00000001#32 ∧ t.s1 = 1#16 ∧ t.s2 = 0#16

/-- R68's "no command is in progress and no response is pending", in the model's own fields: the host has
issued nothing, no response has been given and no buffer is on the port (log entry 2, the model's choice). -/
def Obligations.PowerOnIsIdle : Prop :=
  State.reset.stream = [] ∧ State.reset.responses = [] ∧ State.reset.buffer.present = false ∧
  State.reset.buffer.bytes = [] ∧ step State.reset = .next State.reset

/-- R17: the packed layout, and that VALUE answers `{S2[15:0], S1[15:0]}`. -/
def Obligations.PackedLayout : Prop :=
  ∀ s : State,
    s.s1 = s.acc.extractLsb' 0 16 ∧ s.s2 = s.acc.extractLsb' 16 16 ∧
    s.acc = (s.s2.setWidth 32 <<< 16) ||| s.s1.setWidth 32 ∧
    exec .value s =
      .next { s with responses := s.responses ++ [{ status := .ok, rdata := s.s2 ++ s.s1 }] }

/-- R44, whole: RESET's effect on any state and for any values of the bits it ignores, that the buffer on the
port plays no part, that it is idempotent and that right after construction it changes no register (this last
clause the spec marks as derived), and the example. -/
def Obligations.ResetCommand : Prop :=
  (∀ s : State, exec .reset s =
    .next { s with acc := 0x00000001#32,
                   responses := s.responses ++ [{ status := .ok, rdata := 0#32 }] }) ∧
  (∀ (s : State) (c : Command) (rest : List Command), s.stream = c :: rest → packetOp c.packet = 0b00#2 →
    step s = .next { acc := 0x00000001#32, buffer := c.buffer, stream := rest,
                     responses := s.responses ++ [{ status := .ok, rdata := 0#32 }] }) ∧
  (∀ s t u : State, exec .reset s = .next t → exec .reset t = .next u → u.acc = t.acc) ∧
  (∃ t, exec .reset State.reset = .next t ∧ t.acc = State.reset.acc) ∧
  (∃ t, exec .reset { State.reset with acc := 0x11E60398#32 } = .next t ∧ t.acc = 0x00000001#32 ∧
    t.responses = [{ status := .ok, rdata := 0#32 }])

/-- R45, whole: VALUE's response on any state and for any values of the bits it ignores, that it writes
nothing, VALUE before any update, two VALUEs in a row (this clause the spec marks as derived), the unsigned
64-bit view, and the example. -/
def Obligations.ValueCommand : Prop :=
  (∀ s : State, exec .value s =
    .next { s with responses := s.responses ++ [{ status := .ok, rdata := s.acc }] }) ∧
  (∀ (s : State) (c : Command) (rest : List Command), s.stream = c :: rest → packetOp c.packet = 0b01#2 →
    step s = .next { acc := s.acc, buffer := c.buffer, stream := rest,
                     responses := s.responses ++ [{ status := .ok, rdata := s.acc }] }) ∧
  (∃ t, exec .value State.reset = .next t ∧ t.responses = [{ status := .ok, rdata := 0x00000001#32 }]) ∧
  (∀ s t u : State, exec .value s = .next t → exec .value t = .next u →
    ∃ r, t.responses = s.responses ++ [r] ∧ u.responses = t.responses ++ [r]) ∧
  (∀ r : Response, r.view64.toNat = r.rdata.toNat) ∧
  (Response.view64 { status := .ok, rdata := 0xD722C9FB#32 }).toNat = 3609381371 ∧
  (∃ t u v, exec .reset State.reset = .next t ∧ exec (.updateByte 0x00000001#32) t = .next u ∧
    exec .value u = .next v ∧
    v.responses = u.responses ++ [{ status := .ok, rdata := 0x00020002#32 }])

/-! ### The updater and UPDATE_BYTE -/

/-- R46: the updater's two sums, packed; and on a reduced accumulator its three consequences (which the spec
marks as derived): the result is reduced, and each `mod` is at most one subtraction of 65521.
What is said here of an `ACC` that is not reduced is the model's choice (log entry 10): R75 and item I4 of
93_implementation_defined.md make R18's invariant a launch premise. -/
def Obligations.UpdaterFormula : Prop :=
  ∀ (acc : Word) (b : Byte),
    (lowHalf (upd acc b)).toNat = ((lowHalf acc).toNat + b.toNat) % 65521 ∧
    (highHalf (upd acc b)).toNat =
      ((highHalf acc).toNat + ((lowHalf acc).toNat + b.toNat) % 65521) % 65521 ∧
    upd acc b = ((highHalf (upd acc b)).setWidth 32 <<< 16) ||| (lowHalf (upd acc b)).setWidth 32 ∧
    (Reduced acc →
      Reduced (upd acc b) ∧
      (lowHalf acc).toNat + b.toNat ≤ 65775 ∧
      (highHalf acc).toNat + (lowHalf (upd acc b)).toNat ≤ 131040 ∧
      ((lowHalf acc).toNat + b.toNat < 65521 →
        (lowHalf (upd acc b)).toNat = (lowHalf acc).toNat + b.toNat) ∧
      (65521 ≤ (lowHalf acc).toNat + b.toNat →
        (lowHalf (upd acc b)).toNat = (lowHalf acc).toNat + b.toNat - 65521) ∧
      ((highHalf acc).toNat + (lowHalf (upd acc b)).toNat < 65521 →
        (highHalf (upd acc b)).toNat = (highHalf acc).toNat + (lowHalf (upd acc b)).toNat) ∧
      (65521 ≤ (highHalf acc).toNat + (lowHalf (upd acc b)).toNat →
        (highHalf (upd acc b)).toNat = (highHalf acc).toNat + (lowHalf (upd acc b)).toNat - 65521))

/-- R47, whole: UPDATE_BYTE's effect on any state and for any values of the bits it ignores, its four masked
data words, b = 0, the wraps of S1 and S2 (R18's invariant is assumed where the rule speaks of wrapping), and
the example.
What is said here of an `ACC` that is not reduced is the model's choice (log entry 10): R75 and item I4 of
93_implementation_defined.md make R18's invariant a launch premise. -/
def Obligations.UpdateByteCommand : Prop :=
  (∀ (data : Word) (s : State), exec (.updateByte data) s =
    .next { s with acc := upd s.acc (data.extractLsb' 0 8),
                   responses := s.responses ++ [{ status := .ok, rdata := 0#32 }] }) ∧
  (∀ (s : State) (c : Command) (rest : List Command), s.stream = c :: rest → packetOp c.packet = 0b10#2 →
    step s = .next { acc := upd s.acc (c.packet.extractLsb' 32 8), buffer := c.buffer, stream := rest,
                     responses := s.responses ++ [{ status := .ok, rdata := 0#32 }] }) ∧
  (dataByte 0x000001FF#32 = 255#8 ∧ dataByte 0xFFFFFFFF#32 = 255#8 ∧ dataByte 0x800000FF#32 = 255#8 ∧
    dataByte 0xFFFFFF00#32 = 0#8) ∧
  (∀ s : State, Reduced s.acc → ∃ t, exec (.updateByte 0#32) s = .next t ∧ t.s1 = s.s1 ∧
    t.s2.toNat = (s.s2.toNat + s.s1.toNat) % 65521) ∧
  (∃ t, exec (.updateByte 0#32) State.reset = .next t ∧ t.acc = 0x00010001#32) ∧
  (∀ (data : Word) (s : State), Reduced s.acc → ∃ t, exec (.updateByte data) s = .next t ∧
    (s.s1.toNat + (dataByte data).toNat = 65521 → t.s1 = 0#16 ∧ t.s2 = s.s2) ∧
    (t.s1 = 0#16 → s.s1.toNat + (dataByte data).toNat = 65521 ∨
      (s.s1 = 0#16 ∧ dataByte data = 0#8)) ∧
    (s.s1 = 65520#16 → dataByte data = 255#8 → t.s1 = 254#16) ∧
    (65521 ≤ s.s2.toNat + t.s1.toNat → t.s2.toNat = s.s2.toNat + t.s1.toNat - 65521) ∧
    (s.s2 = 65520#16 → t.s1 = 1#16 → t.s2 = 0#16)) ∧
  (∃ t, exec (.updateByte 0x00000001#32) State.reset = .next t ∧ t.acc = 0x00020002#32)

/-- R48 (the spec marks it as derived): UPDATE_BYTE leaves the accumulator that an UPDATE_RANGE of offset 0 and
count 1 over any one-byte buffer with that byte leaves.
What is said here of an `ACC` that is not reduced is the model's choice (log entry 10): R75 and item I4 of
93_implementation_defined.md make R18's invariant a launch premise. -/
def Obligations.ByteIsOneByteRange : Prop :=
  ∀ (data : Word) (s : State) (buf : Buffer),
    buf.present = true → buf.len.val = 1 → buf.memRead 0 = some (dataByte data) →
      ∃ t u, exec (.updateByte data) s = .next t ∧
        exec (.updateRange 0 1) { s with buffer := buf } = .next u ∧
        u.acc = t.acc ∧ u.responses = t.responses

/-! ### UPDATE_RANGE -/

/-- R49, whole: an accepted UPDATE_RANGE folds the bytes at `offset`, …, `offset + count - 1` one at a time, as
UPDATE_BYTE would, and answers OK; a rejected one answers the error of R50 with `ACC` unchanged; the packet's
words are its operands, whatever the bits it ignores; and the example ("Wikipedia").
What is said here of an `ACC` that is not reduced is the model's choice (log entry 10): R75 and item I4 of
93_implementation_defined.md make R18's invariant a launch premise. -/
def Obligations.UpdateRangeCommand : Prop :=
  (∀ (offset count : Int) (s : State), Accepted s.buffer offset count →
    exec (.updateRange offset count) s =
      .next { s with acc := foldUpd s.acc (s.buffer.slice offset.toNat count.toNat),
                     responses := s.responses ++ [{ status := .ok, rdata := 0#32 }] }) ∧
  (∀ (offset count : Int) (s : State), s.buffer.present = false →
    exec (.updateRange offset count) s =
      .next { s with responses := s.responses ++ [{ status := .invalidArgument, rdata := 0#32 }] }) ∧
  (∀ (offset count : Int) (s : State), s.buffer.present = true → ¬ Accepted s.buffer offset count →
    exec (.updateRange offset count) s =
      .next { s with responses := s.responses ++ [{ status := .outOfRange, rdata := 0#32 }] }) ∧
  (∀ (s : State) (c : Command) (rest : List Command), s.stream = c :: rest → packetOp c.packet = 0b11#2 →
    step s = exec (.updateRange (c.packet.extractLsb' 32 32).toInt (c.packet.extractLsb' 64 32).toInt)
      { s with buffer := c.buffer, stream := rest }) ∧
  (∃ buf t, (BufOperand.named [0x57#8, 0x69#8, 0x6B#8, 0x69#8, 0x70#8, 0x65#8, 0x64#8, 0x69#8, 0x61#8]).buffer =
      some buf ∧
    exec (.updateRange 0 9) { State.reset with buffer := buf } = .next t ∧ t.acc = 0x11E60398#32 ∧
    t.responses = [{ status := .ok, rdata := 0#32 }])

/-- R50 (its first check is the spec's decision D13): each check that fails gives its error, the absent buffer
before all others, and changes no register; a command that fails none is accepted and answers OK. -/
def Obligations.ValidationOrder : Prop :=
  ∀ (offset count : Int) (s : State), ∃ t st,
    exec (.updateRange offset count) s = .next t ∧
    t.responses = s.responses ++ [{ status := st, rdata := 0#32 }] ∧
    (s.buffer.present = false → st = .invalidArgument) ∧
    (s.buffer.present = true → offset < 0 → st = .outOfRange) ∧
    (s.buffer.present = true → count < 0 → st = .outOfRange) ∧
    (s.buffer.present = true → offset ≥ s.buffer.len.val → st = .outOfRange) ∧
    (s.buffer.present = true → offset + count > s.buffer.len.val → st = .outOfRange) ∧
    (s.buffer.present = true → 0 ≤ offset → 0 ≤ count → offset < s.buffer.len.val →
      offset + count ≤ s.buffer.len.val → st = .ok) ∧
    (st ≠ .ok → t.acc = s.acc)

/-- R52 (the spec marks the bound as derived): from reduced sums, after any k ≤ 3800 bytes of a run the two
32-bit sums are the sums over unbounded integers (no add has wrapped) and lie within the bounds; and what a run
hands to the next is reduced again. -/
def Obligations.RunSumsNeverWrap : Prop :=
  (∀ acc : Word, Reduced acc →
    (Sums.ofAcc 32 acc).rs1.toNat = (lowHalf acc).toNat ∧ (Sums.ofAcc 32 acc).rs1.toNat ≤ 65520 ∧
    (Sums.ofAcc 32 acc).rs2.toNat = (highHalf acc).toNat ∧ (Sums.ofAcc 32 acc).rs2.toNat ≤ 65520) ∧
  (∀ (buf : Buffer) (k i : Nat) (r r' : Sums 32),
    r.rs1.toNat ≤ 65520 → r.rs2.toNat ≤ 65520 → k ≤ 3800 → sumRun buf k i r = some r' →
      (r'.rs1.toNat, r'.rs2.toNat) = exactSums r.rs1.toNat r.rs2.toNat (buf.slice i k) ∧
      r'.rs1.toNat ≤ 65520 + 255 * k ∧
      r'.rs2.toNat ≤ 65520 + 65520 * k + 255 * k * (k + 1) / 2 ∧
      r'.rs1.toNat ≤ 1034520 ∧ r'.rs2.toNat ≤ 2090626020 ∧
      r'.reduce.rs1.toNat ≤ 65520 ∧ r'.reduce.rs2.toNat ≤ 65520)

/-- R52's last point (which the spec marks as derived): both bounds are reached exactly when S1 = S2 = 65520 and
3800 bytes of 0xFF follow. -/
def Obligations.RunBoundsReachedExactly : Prop :=
  ∀ (buf : Buffer) (k i : Nat) (r r' : Sums 32),
    r.rs1.toNat ≤ 65520 → r.rs2.toNat ≤ 65520 → k ≤ 3800 → sumRun buf k i r = some r' →
      ((r'.rs1.toNat = 1034520 ∧ r'.rs2.toNat = 2090626020) ↔
        (r.rs1.toNat = 65520 ∧ r.rs2.toNat = 65520 ∧ k = 3800 ∧ ∀ b ∈ buf.slice i k, b = 0xFF#8))

/-- R58 and R10 (the spec marks both as derived): an engine of any other run length and width whose adds cannot
wrap gives this engine's result; this hardware's pair meets the condition; and 5552 and 3854 are the largest run
lengths for 32 bits and below 2^31. -/
def Obligations.OtherEnginesAgree : Prop :=
  (∀ (batch w : Nat) (buf : Buffer) (acc : Word) (offset count : Nat),
    1 ≤ batch → 65520 * (batch + 1) + 255 * batch * (batch + 1) / 2 ≤ 2 ^ w - 1 → Reduced acc →
    buf.present = true → offset + count ≤ buf.len.val →
      engineWith batch w buf acc offset count = engine buf acc offset count) ∧
  65520 * (3800 + 1) + 255 * 3800 * (3800 + 1) / 2 ≤ 2 ^ 32 - 1 ∧
  (∀ batch : Nat, 65520 * (batch + 1) + 255 * batch * (batch + 1) / 2 ≤ 2 ^ 32 - 1 ↔ batch ≤ 5552) ∧
  (∀ batch : Nat, 65520 * (batch + 1) + 255 * batch * (batch + 1) / 2 < 2 ^ 31 ↔ batch ≤ 3854)

/-- R55 (the spec marks it as derived): count 0 at a valid offset answers OK, changes no register and reads no
byte (the result is the same whatever the buffer holds). -/
def Obligations.ZeroCountChangesNothing : Prop :=
  ∀ (offset : Int) (s : State) (bytes : Memory),
    s.buffer.present = true → 0 ≤ offset → offset < s.buffer.len.val →
      exec (.updateRange offset 0) { s with buffer := { s.buffer with bytes := bytes } } =
        .next { s with buffer := { s.buffer with bytes := bytes },
                       responses := s.responses ++ [{ status := .ok, rdata := 0#32 }] }

/-- R56 (the spec's decision D14; its consequence for empty buffers the spec marks as derived): offset = BUF_LEN
is out of range for every count, 0 among them, and over an empty or absent buffer every UPDATE_RANGE fails. -/
def Obligations.OffsetAtEndFails : Prop :=
  (∀ (count : Int) (s : State), s.buffer.present = true →
    exec (.updateRange s.buffer.len.val count) s =
      .next { s with responses := s.responses ++ [{ status := .outOfRange, rdata := 0#32 }] }) ∧
  (∀ (offset count : Int) (s : State), s.buffer.present = true → s.buffer.len.val = 0 →
    exec (.updateRange offset count) s =
      .next { s with responses := s.responses ++ [{ status := .outOfRange, rdata := 0#32 }] }) ∧
  (∀ (offset count : Int) (s : State), s.buffer.present = false →
    exec (.updateRange offset count) s =
      .next { s with responses := s.responses ++ [{ status := .invalidArgument, rdata := 0#32 }] })

/-- R57 (the spec's decision D12): the sum of offset and count is exact. Operands whose exact sum passes BUF_LEN
are out of range even where their 32-bit sum would be negative, the example among them; of operands that pass
the sign checks the sum is below 2^32; and an accepted command reads inside the buffer only. -/
def Obligations.BoundSumIsExact : Prop :=
  (∀ (offset count : Int) (s : State), s.buffer.present = true → 0 ≤ offset → 0 ≤ count →
    (s.buffer.len.val : Int) < offset + count →
      exec (.updateRange offset count) s =
        .next { s with responses := s.responses ++ [{ status := .outOfRange, rdata := 0#32 }] }) ∧
  (sint32 (word32 (1 + 0x7FFFFFFF)) < 0 ∧
    ∀ s : State, s.buffer.present = true → s.buffer.len.val = 4 →
      exec (.updateRange 1 0x7FFFFFFF) s =
        .next { s with responses := s.responses ++ [{ status := .outOfRange, rdata := 0#32 }] }) ∧
  (∀ w1 w2 : Word, 0 ≤ sint32 w1 → 0 ≤ sint32 w2 → sint32 w1 + sint32 w2 < 2 ^ 32) ∧
  (∀ (buf : Buffer) (offset count : Int) (k : Nat), Accepted buf offset count →
    offset ≤ k → k < offset + count → (buf.memRead k).isSome = true)

/-- R27 (the spec marks it as derived): UPDATE_RANGE reads no index outside [offset, offset + count - 1], and none
at all when it is rejected. Over two buffers with one descriptor that agree on those bytes (on none, when the
command is rejected) it gives the same accumulator and the same response.
What is said here of an `ACC` that is not reduced is the model's choice (log entry 10): R75 and item I4 of
93_implementation_defined.md make R18's invariant a launch premise. -/
def Obligations.RangeReadsOnlyItsBytes : Prop :=
  ∀ (offset count : Int) (s : State) (buf buf' : Buffer),
    buf.present = buf'.present → buf.len = buf'.len →
    (Accepted buf offset count → ∀ k : Nat, offset ≤ k → k < offset + count →
      buf.bytes.read k = buf'.bytes.read k) →
      ∃ acc r,
        exec (.updateRange offset count) { s with buffer := buf } =
          .next { s with acc := acc, buffer := buf, responses := s.responses ++ [r] } ∧
        exec (.updateRange offset count) { s with buffer := buf' } =
          .next { s with acc := acc, buffer := buf', responses := s.responses ++ [r] }

/-- R54 (the spec marks it as derived). A run of commands without RESET leaves the fold of the bytes they feed, in
order; so any commands that feed the bytes of B leave what one UPDATE_RANGE over B leaves. The last two clauses say
what a command feeds: UPDATE_BYTE its byte, an accepted UPDATE_RANGE its slice; the third that VALUE and a
rejected UPDATE_RANGE feed nothing.
What is said here of an `ACC` that is not reduced is the model's choice (log entry 10): R75 and item I4 of
93_implementation_defined.md make R18's invariant a launch premise. -/
def Obligations.ChunkingInvariance : Prop :=
  (∀ s : State, (∀ c ∈ s.stream, packetOp c.packet ≠ 0b00#2) →
    ∃ t, s.runStream = .next t ∧ t.acc = foldUpd s.acc (s.stream.flatMap Command.feeds)) ∧
  (∀ (s : State) (whole : List Byte) (h : whole.length ≤ Config.bufLenMax), whole ≠ [] →
    (∀ c ∈ s.stream, packetOp c.packet ≠ 0b00#2) → s.stream.flatMap Command.feeds = whole →
      ∃ t u, s.runStream = .next t ∧
        exec (.updateRange 0 whole.length) { s with buffer := Buffer.ofBytes whole h } = .next u ∧
        t.acc = u.acc) ∧
  (∀ (c : Command), packetOp c.packet = 0b01#2 ∨ (packetOp c.packet = 0b11#2 ∧
      ¬ Accepted c.buffer (c.packet.extractLsb' 32 32).toInt (c.packet.extractLsb' 64 32).toInt) →
    c.feeds = []) ∧
  (∀ c : Command, packetOp c.packet = 0b10#2 → c.feeds = [c.packet.extractLsb' 32 8]) ∧
  (∀ c : Command, packetOp c.packet = 0b11#2 →
    Accepted c.buffer (c.packet.extractLsb' 32 32).toInt (c.packet.extractLsb' 64 32).toInt →
      c.feeds = c.buffer.slice (c.packet.extractLsb' 32 32).toInt.toNat
        (c.packet.extractLsb' 64 32).toInt.toNat)

/-! ### Errors and responses -/

/-- R60 (the codes are the spec's decision D7), whole: which command raises which error and why, what it records,
and that no other status is ever given. -/
def Obligations.OnlyRangeFails : Prop :=
  (∀ (i : Instr) (s : State), ∃ t st data,
    exec i s = .next t ∧ t.responses = s.responses ++ [{ status := st, rdata := data }] ∧
    (st = .invalidArgument ↔ ∃ offset count, i = .updateRange offset count ∧ s.buffer.present = false) ∧
    (st = .outOfRange ↔ ∃ offset count, i = .updateRange offset count ∧ s.buffer.present = true ∧
      (offset < 0 ∨ count < 0 ∨ offset ≥ s.buffer.len.val ∨ offset + count > s.buffer.len.val)) ∧
    (st ≠ .ok → data = 0#32) ∧ st.code ≠ 0b11#2) ∧
  Status.invalidArgument.code = 0b01#2 ∧ Status.outOfRange.code = 0b10#2

/-- R62's frame (which error a command gives, and its status, is OnlyRangeFails): a command that answers a status other
than OK has rdata 0, changes nothing but the responses, and has read no byte (it ends the same way whatever the buffer
holds). -/
def Obligations.ErrorChangesNothing : Prop :=
  ∀ (i : Instr) (s t : State) (r : Response),
    exec i s = .next t → t.responses = s.responses ++ [r] → r.status ≠ .ok →
      r.rdata = 0#32 ∧ t = { s with responses := s.responses ++ [r] } ∧
      ∀ bytes : Memory, exec i { s with buffer := { s.buffer with bytes := bytes } } =
        .next { t with buffer := { s.buffer with bytes := bytes } }

/-- R62's precision over a whole run: with the failing command left out, the run ends with the same accumulator and
gives the same other responses.
What is said here of an `ACC` that is not reduced is the model's choice (log entry 10): R75 and item I4 of
93_implementation_defined.md make R18's invariant a launch premise. -/
def Obligations.FailedCommandCouldBeLeftOut : Prop :=
  ∀ (s t : State) (c : Command) (rest : List Command) (r : Response),
    s.stream = c :: rest → step s = .next t → t.responses = s.responses ++ [r] → r.status ≠ .ok →
      ∃ u u' later,
        s.runStream = .next u ∧ State.runStream { s with stream := rest } = .next u' ∧
        u.acc = u'.acc ∧ u.responses = s.responses ++ r :: later ∧
        u'.responses = s.responses ++ later

/-- R41 (the spec's decisions D7 to D9), whole: every command gives exactly one response; rdata is `ACC` for VALUE
and 0 for every other command; only UPDATE_RANGE fails; the codes of the statuses, 0b11 among them no status; and
the 64-bit view. -/
def Obligations.ResponseFormat : Prop :=
  (∀ (i : Instr) (s : State), ∃ t r, exec i s = .next t ∧ t.responses = s.responses ++ [r] ∧
    (i = .value → r.rdata = s.acc) ∧ (i ≠ .value → r.rdata = 0x00000000#32) ∧
    (r.status ≠ .ok → ∃ offset count, i = .updateRange offset count) ∧
    r.status.code ≠ 0b11#2 ∧ r.view64 = r.rdata.setWidth 64) ∧
  Status.ok.code = 0b00#2 ∧ Status.invalidArgument.code = 0b01#2 ∧ Status.outOfRange.code = 0b10#2 ∧
  Status.ofCode 0b11#2 = none ∧ ∀ st : Status, Status.ofCode st.code = some st

/-! ### The whole machine -/

/-- The frame of every command, and that every command completes (R14, R16, R28, R31): on every state and for all
operands it answers a next state in which the accumulator is `accAfter`, one response has been added, and the
rest is as before: the buffer port, every byte read through it, and the host's stream. Only RESET, UPDATE_BYTE and
an accepted UPDATE_RANGE change the accumulator.
What is said here of an `ACC` that is not reduced is the model's choice (log entry 10): R75 and item I4 of
93_implementation_defined.md make R18's invariant a launch premise. -/
def Obligations.EveryCommandCompletesWithinItsFrame : Prop :=
  ∀ (i : Instr) (s : State), ∃ t,
    exec i s = .next t ∧
    t.acc = accAfter i s ∧
    t.responses = s.responses ++ [responseOf i s] ∧
    t.buffer = s.buffer ∧ (∀ k : Nat, t.buffer.memRead k = s.buffer.memRead k) ∧
    t.stream = s.stream ∧
    (t.acc ≠ s.acc → i = .reset ∨ (∃ data, i = .updateByte data) ∨
      ∃ offset count, i = .updateRange offset count ∧ Accepted s.buffer offset count)

/-- R26: RESET, VALUE and UPDATE_BYTE ignore the buffer descriptor (and the buffer). -/
def Obligations.OthersIgnoreTheBuffer : Prop :=
  ∀ (i : Instr) (s t : State) (buf : Buffer), (∀ offset count, i ≠ .updateRange offset count) →
    exec i s = .next t → exec i { s with buffer := buf } = .next { t with buffer := buf }

/-- R14: nothing but `ACC` persists from one command to the next, and so no error is sticky (R63) and no status is
stored (R21). Two states with the same accumulator that issue the same command, whatever was answered before and
whatever the port held, get the same accumulator and the same response. -/
def Obligations.OnlyTheAccumulatorPersists : Prop :=
  ∀ (s s' : State) (c : Command) (rest : List Command),
    s.acc = s'.acc → s.stream = c :: rest → s'.stream = c :: rest →
      ∃ acc r,
        step s = .next { acc := acc, buffer := c.buffer, stream := rest, responses := s.responses ++ [r] } ∧
        step s' = .next { acc := acc, buffer := c.buffer, stream := rest, responses := s'.responses ++ [r] }

/-- The invariant of the machine holds at power-on reset. -/
def Obligations.ResetMeetsTheInvariant : Prop := State.reset.Inv

/-- Every step keeps the invariant of the machine: `ACC` reduced (R18), every buffer one the port may present (R26),
every word ever answered reduced, and 0 where the command failed (R41). -/
def Obligations.StepKeepsTheInvariant : Prop :=
  ∀ s t : State, s.Inv → step s = .next t → t.Inv

/-- R18: at every command boundary of every run both sums are below 65521, whether commands succeed or fail; so (the
spec marks these as derived) `ACC` never passes 0xFFF0_FFF0 and neither half is 0xFFF1 or more. A run from a start
`ACC` that breaks the invariant is not spoken of: the invariant is the launch premise, and power-on meets it. -/
def Obligations.ReducedAtEveryBoundary : Prop :=
  Reduced State.reset.acc ∧
  ∀ (s : State) (k : Nat), Reduced s.acc → ∃ t, Host.Core.run Sys2Proof.core k s = .next t ∧
    t.s1.toNat < 65521 ∧ t.s2.toNat < 65521 ∧ t.acc.toNat ≤ 0xFFF0FFF0 ∧
    t.s1.toNat < 0xFFF1 ∧ t.s2.toNat < 0xFFF1

/-- R75 (the spec marks it as derived): a run cannot hang or stop. Every run is safe: from every state the host's
commands are all issued, and each gets exactly one response.
What is said here of an `ACC` that is not reduced is the model's choice (log entry 10): R75 and item I4 of
93_implementation_defined.md make R18's invariant a launch premise. -/
def Obligations.EveryRunCompletes : Prop :=
  ∀ s : State, s.RunsSafely ∧ ∃ t given, s.runStream = .next t ∧ t.stream = [] ∧
    t.responses = s.responses ++ given ∧ given.length = s.stream.length

/-- A step runs the decoded command: it takes the host's next command off the stream, samples its buffer, and is
`exec` of the decoded packet (R36, R76). The word that `withFetchWord` places is run as it decodes (log entry 5). -/
def Obligations.StepRunsTheDecodedCommand : Prop :=
  (∀ (s : State) (c : Command) (rest : List Command), s.stream = c :: rest →
    step s = exec (decode c.packet) { s with buffer := c.buffer, stream := rest }) ∧
  (∀ (s : State) (nbits w : Nat) (i : Instr), decodeTableWord nbits w = some i →
    step (s.withFetchWord nbits w) = exec i s)

/-- R64 and R67: with no command issued nothing happens, and `ACC` keeps its value however long the block is idle
(that an idle step is a step at all is the model's choice, log entry 2). -/
def Obligations.IdleKeepsEverything : Prop :=
  ∀ (s : State) (k : Nat), s.stream = [] → Host.Core.run Sys2Proof.core k s = .next s

/-- R69 and R70 (the spec marks R69 as derived): a RESET command starts a new checksum. What follows it gets the
responses, and ends with the accumulator, that the same commands get and leave after power-on. -/
def Obligations.ResetStartsAfresh : Prop :=
  ∀ (s : State) (c : Command) (rest : List Command), s.stream = c :: rest → packetOp c.packet = 0b00#2 →
    ∃ t u later,
      s.runStream = .next t ∧ State.runStream { State.reset with stream := rest } = .next u ∧
      t.acc = u.acc ∧ u.responses = later ∧
      t.responses = s.responses ++ { status := .ok, rdata := 0x00000000#32 } :: later

/-- R73 (the spec marks it as derived): the effect of a command is complete when its response returns. A VALUE issued
right after any command answers the accumulator that command left.
What is said here of an `ACC` that is not reduced is the model's choice (log entry 10): R75 and item I4 of
93_implementation_defined.md make R18's invariant a launch premise. -/
def Obligations.ValueSeesThePrecedingCommand : Prop :=
  ∀ (s : State) (c v : Command) (rest : List Command),
    s.stream = c :: v :: rest → packetOp v.packet = 0b01#2 →
      ∃ t u r, step s = .next t ∧ Host.Core.run Sys2Proof.core 2 s = .next u ∧
        t.acc = accAfter (decode c.packet) { s with buffer := c.buffer, stream := v :: rest } ∧
        u.acc = t.acc ∧ u.responses = s.responses ++ [r, { status := .ok, rdata := t.acc }]

/-- The listing of a buffer's contents is canonical (the model's form, log entry 4): two canonical listings that read
the same at every index are the same listing, so equal buffers are equal data. -/
def Obligations.CanonicalListingsAreUnique : Prop :=
  ∀ m m' : Memory, m.wf = true → m'.wf = true → (∀ k : Nat, m.read k = m'.read k) → m = m'
end

