-- ==== Sys2Proof/Laws/Accumulator.lean ====
section
/-! SUPPORT. The packed word and the updater. -/

namespace Sys2Proof.Machine

/-- The bits of a packed word. -/
theorem getLsbD_pack (s2 s1 : Half) (i : Nat) :
    (pack s2 s1).getLsbD i = if i < 16 then s1.getLsbD i else s2.getLsbD (i - 16) :=
  BitVec.getLsbD_append

@[simp] theorem lowHalf_pack (s2 s1 : Half) : lowHalf (pack s2 s1) = s1 := by
  unfold lowHalf
  ext i hi
  simp [getLsbD_pack, hi]

@[simp] theorem highHalf_pack (s2 s1 : Half) : highHalf (pack s2 s1) = s2 := by
  unfold highHalf
  ext i hi
  simp [getLsbD_pack, BitVec.getLsbD_eq_getElem hi]

/-- A word is its two halves. -/
@[simp] theorem pack_halves (acc : Word) : pack (highHalf acc) (lowHalf acc) = acc := by
  apply BitVec.eq_of_getLsbD_eq
  intro i hi
  rw [getLsbD_pack]
  unfold lowHalf highHalf
  split
  · simp [*]
  · simp [show i - 16 < 16 by omega, show 16 + (i - 16) = i by omega]

/-- Words with equal halves are equal. -/
theorem word_ext {x y : Word} (h2 : (highHalf x).toNat = (highHalf y).toNat)
    (h1 : (lowHalf x).toNat = (lowHalf y).toNat) : x = y := by
  rw [← pack_halves x, ← pack_halves y, BitVec.eq_of_toNat_eq h2, BitVec.eq_of_toNat_eq h1]

theorem nextS1_lt (s1 : Half) (b : Byte) : nextS1 s1 b < 65521 := Nat.mod_lt _ (by decide)

theorem nextS2_lt (s2 : Half) (s1' : Nat) : nextS2 s2 s1' < 65521 := Nat.mod_lt _ (by decide)

/-- The low half the updater leaves (R46). -/
@[simp] theorem lowHalf_upd (acc : Word) (b : Byte) :
    (lowHalf (upd acc b)).toNat = nextS1 (lowHalf acc) b := by
  have := nextS1_lt (lowHalf acc) b
  simp only [upd, lowHalf_pack, BitVec.toNat_ofNat]
  exact Nat.mod_eq_of_lt (by omega)

/-- The high half the updater leaves (R46). -/
@[simp] theorem highHalf_upd (acc : Word) (b : Byte) :
    (highHalf (upd acc b)).toNat = nextS2 (highHalf acc) (nextS1 (lowHalf acc) b) := by
  have := nextS2_lt (highHalf acc) (nextS1 (lowHalf acc) b)
  simp only [upd, highHalf_pack, BitVec.toNat_ofNat]
  exact Nat.mod_eq_of_lt (by omega)

end Sys2Proof.Machine
end

