-- ==== Sys2Proof/Laws/Decode.lean ====
section
/-! SUPPORT. What each field of a packet is, and what the decoder makes of each value of `op`. -/

namespace Sys2Proof

/-- The bits of a packet, word by word (R37). -/
theorem getLsbD_packetOf (w0 w1 w2 : Word) (i : Nat) :
    (packetOf w0 w1 w2).getLsbD i =
      if i < 32 then w0.getLsbD i
      else if i - 32 < 32 then w1.getLsbD (i - 32) else w2.getLsbD (i - 32 - 32) := by
  rw [← BitVec.getLsbD_append]
  exact BitVec.getLsbD_append

@[simp] theorem packetW0_packetOf (w0 w1 w2 : Word) : packetW0 (packetOf w0 w1 w2) = w0 := by
  unfold packetW0
  ext i hi
  simp [getLsbD_packetOf, hi]

@[simp] theorem packetW1_packetOf (w0 w1 w2 : Word) : packetW1 (packetOf w0 w1 w2) = w1 := by
  unfold packetW1
  ext i hi
  simp [getLsbD_packetOf, hi]

@[simp] theorem packetW2_packetOf (w0 w1 w2 : Word) : packetW2 (packetOf w0 w1 w2) = w2 := by
  unfold packetW2
  ext i hi
  simp [getLsbD_packetOf, show ¬ 64 + i < 32 by omega, show ¬ 64 + i - 32 < 32 by omega,
    show 64 + i - 32 - 32 = i by omega, BitVec.getLsbD_eq_getElem hi]

/-- A packet is its three words (R37). -/
theorem packetOf_words (p : Packet) : packetOf (packetW0 p) (packetW1 p) (packetW2 p) = p := by
  apply BitVec.eq_of_getLsbD_eq
  intro i hi
  rw [getLsbD_packetOf]
  unfold packetW0 packetW1 packetW2
  split
  · simp [*]
  · split
    · simp [*, show 32 + (i - 32) = i by omega]
    · simp [show i - 32 - 32 < 32 by omega, show 64 + (i - 32 - 32) = i by omega]

theorem packetOp_packetOf (w0 w1 w2 : Word) : packetOp (packetOf w0 w1 w2) = w0.extractLsb' 0 2 := by
  simp [packetOp]

/-- The four values of `op` (R38). -/
theorem op_cases (x : BitVec 2) : x = 0b00#2 ∨ x = 0b01#2 ∨ x = 0b10#2 ∨ x = 0b11#2 := by
  revert x; decide

theorem decode_of_op_reset {p : Packet} (h : packetOp p = 0b00#2) : decode p = .reset := by
  unfold decode; rw [h]; rfl

theorem decode_of_op_value {p : Packet} (h : packetOp p = 0b01#2) : decode p = .value := by
  unfold decode; rw [h]; rfl

theorem decode_of_op_updateByte {p : Packet} (h : packetOp p = 0b10#2) :
    decode p = .updateByte (packetW1 p) := by
  unfold decode; rw [h]; rfl

theorem decode_of_op_updateRange {p : Packet} (h : packetOp p = 0b11#2) :
    decode p = .updateRange (sint32 (packetW1 p)) (sint32 (packetW2 p)) := by
  unfold decode; rw [h]; rfl

/-- A two's complement operand survives its pattern. -/
theorem sint32_word32 {v : Int} (h : IsSint32 v) : sint32 (word32 v) = v := by
  unfold sint32 word32
  rw [BitVec.toInt_ofInt]
  exact Int.bmod_eq_of_le (by have := h.1; omega) (by have := h.2; omega)

@[simp] theorem word32_sint32 (w : Word) : word32 (sint32 w) = w := by
  simp [sint32, word32]

/-- Every word is the pattern of a value of `sint32`. -/
theorem sint32_range (w : Word) : IsSint32 (sint32 w) := by
  have h1 := BitVec.le_toInt w
  have h2 := BitVec.toInt_lt (x := w)
  unfold sint32
  constructor <;> norm_num at h1 h2 ⊢ <;> omega

end Sys2Proof
end

