-- ==== Sys2Proof/Laws/Memory.lean ====
section
/-! SUPPORT. The listing of a buffer's contents: its canonical form, which every listing the model makes
has, and what it reads as. The block writes no memory (R28), so `Memory.ofBytes` is the only operation that
makes a listing. -/

namespace Sys2Proof.Machine

@[simp] theorem read_nil (i : Nat) : Memory.read [] i = unlistedByte := rfl

@[simp] theorem read_cons (a : Nat) (b : Byte) (rest : Memory) (i : Nat) :
    Memory.read ((a, b) :: rest) i = if a = i then b else Memory.read rest i := rfl

/-- A canonical listing from `low` stays one from any lower bound. -/
theorem wfFrom_mono {m : Memory} {low low' : Nat} (hle : low' ≤ low) (h : Memory.wfFrom low m = true) :
    Memory.wfFrom low' m = true := by
  cases m with
  | nil => rfl
  | cons cell rest =>
    obtain ⟨a, b⟩ := cell
    simp only [Memory.wfFrom, Bool.and_eq_true, decide_eq_true_eq] at h ⊢
    exact ⟨⟨le_trans hle h.1.1, h.1.2⟩, h.2⟩

/-- A canonical listing lists nothing below its bound. -/
theorem read_below {m : Memory} {low i : Nat} (h : Memory.wfFrom low m = true) (hi : i < low) :
    Memory.read m i = unlistedByte := by
  induction m generalizing low with
  | nil => rfl
  | cons cell rest ih =>
    obtain ⟨a, b⟩ := cell
    simp only [Memory.wfFrom, Bool.and_eq_true, decide_eq_true_eq] at h
    rw [read_cons, if_neg (by omega)]
    exact ih h.2 (by omega)

/-- Laying bytes out keeps the canonical form. -/
theorem ofBytes_wfFrom (bs : List Byte) (base : Nat) :
    Memory.wfFrom base (Memory.ofBytes base bs) = true := by
  induction bs generalizing base with
  | nil => rfl
  | cons b rest ih =>
    rw [Memory.ofBytes]
    split
    · exact wfFrom_mono (Nat.le_succ base) (ih (base + 1))
    · rename_i h
      simp [Memory.wfFrom, h, ih (base + 1)]

theorem ofBytes_wf (bs : List Byte) : Memory.wf (Memory.ofBytes 0 bs) = true := ofBytes_wfFrom bs 0

/-- A layout lists no index past its last byte. -/
theorem ofBytes_below (bs : List Byte) (base : Nat) :
    Memory.below (base + bs.length) (Memory.ofBytes base bs) = true := by
  induction bs generalizing base with
  | nil => rfl
  | cons b rest ih =>
    have hlen : base + (b :: rest).length = base + 1 + rest.length := by simp; omega
    rw [hlen, Memory.ofBytes]
    split
    · exact ih (base + 1)
    · have := ih (base + 1)
      simp only [Memory.below, List.all_cons, Bool.and_eq_true, decide_eq_true_eq] at this ⊢
      exact ⟨by omega, this⟩

/-- The `k`-th byte of a layout reads back at index `base + k`; what is past the end reads as unlisted. -/
theorem read_ofBytes (bs : List Byte) (base k : Nat) :
    Memory.read (Memory.ofBytes base bs) (base + k) = bs.getD k unlistedByte := by
  induction bs generalizing base k with
  | nil => rfl
  | cons b rest ih =>
    rw [Memory.ofBytes]
    cases k with
    | zero =>
      split
      · rename_i h
        rw [read_below (ofBytes_wfFrom rest (base + 1)) (by omega)]
        simp [h]
      · simp
    | succ k =>
      have hk : base + (k + 1) = base + 1 + k := by omega
      split
      · rw [hk, ih]; simp
      · rw [read_cons, if_neg (by omega), hk, ih]; simp

/-- A buffer made from bytes is one the port may present. -/
theorem buffer_ofBytes_wf (bs : List Byte) (h : bs.length ≤ Config.bufLenMax) :
    (Buffer.ofBytes bs h).wf = true := by
  have hb := ofBytes_below bs 0
  rw [Nat.zero_add] at hb
  rw [Buffer.wf, Bool.and_eq_true]
  exact ⟨ofBytes_wf bs, hb⟩

/-- The absent buffer is one the port may present. -/
theorem buffer_absent_wf : Buffer.absent.wf = true := by decide

/-- MemRead answers exactly inside the buffer space of a buffer that is present (R25). -/
theorem memRead_eq_some {buf : Buffer} {i : Nat} {b : Byte} :
    buf.memRead i = some b ↔ buf.present = true ∧ i < buf.len.val ∧ buf.bytes.read i = b := by
  unfold Buffer.memRead
  split
  · rename_i h; simp [h.1, h.2]
  · rename_i h; constructor
    · intro h'; cases h'
    · rintro ⟨h1, h2, -⟩; exact absurd ⟨h1, h2⟩ h

/-- MemRead inside the buffer space (R25). -/
theorem memRead_of_lt {buf : Buffer} {i : Nat} (hp : buf.present = true) (hi : i < buf.len.val) :
    buf.memRead i = some (buf.bytes.read i) := memRead_eq_some.mpr ⟨hp, hi, rfl⟩

/-- MemRead of a buffer made from bytes. -/
theorem memRead_ofBytes (bs : List Byte) (h : bs.length ≤ Config.bufLenMax) (k : Nat) (hk : k < bs.length) :
    (Buffer.ofBytes bs h).memRead k = some bs[k] := by
  rw [memRead_of_lt rfl (by exact hk)]
  have := read_ofBytes bs 0 k
  rw [Nat.zero_add] at this
  rw [Buffer.ofBytes, this, List.getD_eq_getElem _ _ hk]

end Sys2Proof.Machine
end

