-- ==== Sys2Proof/Laws/Engine.lean ====
section
/-! SUPPORT. The engine's inner loop: it reads a slice of the buffer in order, and adds it up. -/

namespace Sys2Proof.Machine

@[simp] theorem slice_length (buf : Buffer) (i n : Nat) : (buf.slice i n).length = n := by
  induction n generalizing i with
  | zero => rfl
  | succ n ih => simp [Buffer.slice, ih]

/-- A slice in two parts. -/
theorem slice_add (buf : Buffer) (i m n : Nat) :
    buf.slice i (m + n) = buf.slice i m ++ buf.slice (i + m) n := by
  induction m generalizing i with
  | zero => simp [Buffer.slice]
  | succ m ih =>
    rw [show m + 1 + n = (m + n) + 1 by omega, Buffer.slice, Buffer.slice, ih,
      show i + 1 + m = i + (m + 1) by omega]
    rfl

/-- Every byte of a slice is the byte at some index of its range. -/
theorem mem_slice {buf : Buffer} {i n : Nat} {b : Byte} (h : b ∈ buf.slice i n) :
    ∃ k, i ≤ k ∧ k < i + n ∧ b = buf.bytes.read k := by
  induction n generalizing i with
  | zero => cases h
  | succ n ih =>
    rcases List.mem_cons.mp h with rfl | h
    · exact ⟨i, le_rfl, by omega, rfl⟩
    · obtain ⟨k, hk, hk', rfl⟩ := ih h
      exact ⟨k, by omega, by omega, rfl⟩

/-- Slices depend on the bytes of their range alone. -/
theorem slice_congr {buf buf' : Buffer} {i n : Nat}
    (h : ∀ k, i ≤ k → k < i + n → buf.bytes.read k = buf'.bytes.read k) : buf.slice i n = buf'.slice i n := by
  induction n generalizing i with
  | zero => rfl
  | succ n ih =>
    rw [Buffer.slice, Buffer.slice, h i (by omega) (by omega),
      ih fun k hk hk' => h k (by omega) (by omega)]

@[simp] theorem exactSums_nil (s1 s2 : Nat) : exactSums s1 s2 [] = (s1, s2) := rfl

@[simp] theorem exactSums_cons (s1 s2 : Nat) (b : Byte) (bs : List Byte) :
    exactSums s1 s2 (b :: bs) = exactSums (s1 + b.toNat) (s2 + (s1 + b.toNat)) bs := rfl

/-- The inner loop over a readable range adds up its slice, byte by byte (R51). -/
theorem sumRun_of_range {w : Nat} {buf : Buffer} {n i : Nat} (r : Sums w)
    (hp : buf.present = true) (hi : i + n ≤ buf.len.val) :
    sumRun buf n i r = some ((buf.slice i n).foldl Sums.addByte r) := by
  induction n generalizing i r with
  | zero => rfl
  | succ n ih =>
    rw [sumRun, memRead_of_lt hp (by omega)]
    exact ih (r.addByte _) (by omega)

/-- The inner loop answers only when every byte of its range is in the buffer space, and what it answers is
the slice added up. -/
theorem sumRun_eq_some {w : Nat} {buf : Buffer} {n i : Nat} {r r' : Sums w}
    (h : sumRun buf n i r = some r') :
    (∀ k, i ≤ k → k < i + n → (buf.memRead k).isSome = true) ∧
      r' = (buf.slice i n).foldl Sums.addByte r := by
  induction n generalizing i r with
  | zero =>
    simp only [sumRun, Option.some.injEq] at h
    exact ⟨fun k hk hk' => by omega, h.symm⟩
  | succ n ih =>
    rw [sumRun] at h
    split at h
    · rename_i b hb
      obtain ⟨hr, rfl⟩ := ih h
      refine ⟨fun k hk hk' => ?_, ?_⟩
      · by_cases hki : k = i
        · rw [hki, hb]; rfl
        · exact hr k (by omega) (by omega)
      · rw [Buffer.slice, (memRead_eq_some.mp hb).2.2]; rfl
    · cases h

/-- One turn of the outer loop (R51). -/
theorem runLoop_succ {w : Nat} (batch : Nat) (buf : Buffer) (fuel rem i : Nat) (r : Sums w) (h : rem ≠ 0) :
    runLoop batch buf (fuel + 1) rem i r =
      match sumRun buf (min batch rem) i r with
      | some r' => runLoop batch buf fuel (rem - min batch rem) (i + min batch rem) r'.reduce
      | none => none := if_neg h

/-- With no bytes left the outer loop is over. -/
@[simp] theorem runLoop_zero {w : Nat} (batch : Nat) (buf : Buffer) (fuel i : Nat) (r : Sums w) :
    runLoop batch buf fuel 0 i r = some r := by
  cases fuel <;> simp [runLoop]

end Sys2Proof.Machine
end

