-- ==== Sys2Proof/Laws/PerInstr.lean ====
section
/-! SUPPORT. The statements made instruction by instruction. Family `RoundTrip`: decoding what the encoder
writes for a well-formed command gives the command back. -/

namespace Sys2Proof.Laws.RoundTrip

/-- Decode after encode is the identity on a command that has a packet. -/
def Statement (i : Instr) : Prop := i.WellFormed → decode (encode i) = i

theorem reset : Statement .reset := fun _ => by decide

theorem value : Statement .value := fun _ => by decide

theorem updateByte (data : Word) : Statement (.updateByte data) := by
  intro _
  rw [encode, decode_of_op_updateByte (by rw [packetOp_packetOf]; decide), packetW1_packetOf]

theorem updateRange (offset count : Int) : Statement (.updateRange offset count) := by
  intro h
  simp only [Instr.WellFormed, Instr.wellFormed, Bool.and_eq_true, decide_eq_true_eq] at h
  rw [encode, decode_of_op_updateRange (by rw [packetOp_packetOf]; decide), packetW1_packetOf,
    packetW2_packetOf, sint32_word32 h.1, sint32_word32 h.2]

end Sys2Proof.Laws.RoundTrip
end

