-- ==== Sys2Proof/Laws/State.lean ====
section
/-! SUPPORT. One lemma per field of State and per operation that writes a State, so that no later proof
unfolds a record update. -/

namespace Sys2Proof.Machine

variable (s : State) (v : Word) (st : Status) (e : Error)

@[simp] theorem setAcc_acc : (s.setAcc v).acc = v := rfl
@[simp] theorem setAcc_buffer : (s.setAcc v).buffer = s.buffer := rfl
@[simp] theorem setAcc_stream : (s.setAcc v).stream = s.stream := rfl
@[simp] theorem setAcc_responses : (s.setAcc v).responses = s.responses := rfl
@[simp] theorem setAcc_self : s.setAcc s.acc = s := rfl

@[simp] theorem respond_acc : (s.respond st v).acc = s.acc := rfl
@[simp] theorem respond_buffer : (s.respond st v).buffer = s.buffer := rfl
@[simp] theorem respond_stream : (s.respond st v).stream = s.stream := rfl
@[simp] theorem respond_responses :
    (s.respond st v).responses = s.responses ++ [{ status := st, rdata := v }] := rfl

@[simp] theorem raise_acc : (s.raise e).acc = s.acc := rfl
@[simp] theorem raise_buffer : (s.raise e).buffer = s.buffer := rfl
@[simp] theorem raise_stream : (s.raise e).stream = s.stream := rfl
@[simp] theorem raise_responses :
    (s.raise e).responses = s.responses ++ [{ status := e.status, rdata := 0#32 }] := rfl

@[simp] theorem idle_eq : s.idle = s := rfl

@[simp] theorem reset_acc : State.reset.acc = 0x00000001#32 := rfl
@[simp] theorem reset_buffer : State.reset.buffer = Buffer.absent := rfl
@[simp] theorem reset_stream : State.reset.stream = [] := rfl
@[simp] theorem reset_responses : State.reset.responses = [] := rfl

/-- With nothing issued there is no issue. -/
theorem issue_of_nil (h : s.stream = []) : s.issue = none := by
  simp [State.issue, h]

/-- An issue takes the first command of the stream and samples its buffer; nothing else changes. -/
theorem issue_of_cons (c : Command) (rest : List Command) (h : s.stream = c :: rest) :
    s.issue = some (c.packet, { s with buffer := c.buffer, stream := rest }) := by
  simp [State.issue, h]

/-- The status that reports an error is never OK (R60). -/
@[simp] theorem error_status_ne_ok : e.status ≠ .ok := by cases e <;> decide

/-- A code reads back as the status it stands for. -/
@[simp] theorem ofCode_code : Status.ofCode st.code = some st := by cases st <;> rfl

end Sys2Proof.Machine
end

