-- ==== Sys2Proof/Laws/Step.lean ====
section
/-! SUPPORT. What validation, the meaning of UPDATE_RANGE and a step can do, said once. -/

namespace Sys2Proof.Machine

/-- Validation passes exactly when the five conditions of R50 hold. -/
theorem validate_eq_none {buf : Buffer} {offset count : Int} :
    validate buf offset count = none ↔ Accepted buf offset count := by
  unfold validate
  cases hp : buf.present with
  | false => simp [hp]
  | true =>
    rw [if_neg (by simp)]
    repeat' split
    all_goals simp only [reduceCtorEq, false_iff, true_iff, Accepted, hp, true_and]; omega

/-- An absent buffer gives InvalidArgument, whatever else is wrong (R50, R61). -/
theorem validate_absent {buf : Buffer} (offset count : Int) (h : buf.present = false) :
    validate buf offset count = some .invalidArgument := by
  simp [validate, h]

/-- With a buffer present, what is not accepted is out of range (R50). -/
theorem validate_outOfRange {buf : Buffer} {offset count : Int} (hp : buf.present = true)
    (h : ¬ Accepted buf offset count) : validate buf offset count = some .outOfRange := by
  have h' := mt validate_eq_none.mp h
  revert h'
  unfold validate
  rw [if_neg (by simp [hp])]
  repeat' split
  all_goals simp

/-- UPDATE_RANGE rejected. -/
theorem execUpdateRange_rejected {s : State} {offset count : Int} {e : Error}
    (h : validate s.buffer offset count = some e) :
    execUpdateRange offset count s = .next (s.raise e) := by
  unfold execUpdateRange; rw [h]

/-- UPDATE_RANGE accepted, with the engine's answer. -/
theorem execUpdateRange_accepted {s : State} {offset count : Int} {acc : Word}
    (h : validate s.buffer offset count = none)
    (he : engine s.buffer s.acc (indexOf offset) (indexOf count) = some acc) :
    execUpdateRange offset count s = .next ((s.setAcc acc).respond .ok 0#32) := by
  unfold execUpdateRange; rw [h, he]

/-- Everything UPDATE_RANGE can do when it answers a next state. -/
theorem execUpdateRange_next {s t : State} {offset count : Int}
    (h : execUpdateRange offset count s = .next t) :
    (∃ e, validate s.buffer offset count = some e ∧ t = s.raise e) ∨
      (∃ acc, validate s.buffer offset count = none ∧
        engine s.buffer s.acc (indexOf offset) (indexOf count) = some acc ∧
        t = (s.setAcc acc).respond .ok 0#32) := by
  unfold execUpdateRange at h
  split at h
  · rename_i e hv; cases h; exact .inl ⟨e, hv, rfl⟩
  · rename_i hv
    split at h
    · rename_i acc he; cases h; exact .inr ⟨acc, hv, he, rfl⟩
    · cases h

/-- With nothing issued a step changes nothing. -/
theorem step_of_nil {s : State} (h : s.stream = []) : step s = .next s := by
  unfold step; rw [issue_of_nil s h]; rfl

/-- A step runs the command at the head of the stream. -/
theorem step_of_cons {s : State} {c : Command} {rest : List Command} (h : s.stream = c :: rest) :
    step s = exec (decode c.packet) { s with buffer := c.buffer, stream := rest } := by
  unfold step; rw [issue_of_cons s c rest h]

/-- A run goes on from where its first step leads. -/
theorem run_of_next {s t : State} (k : Nat) (h : step s = .next t) :
    Host.Core.run core (k + 1) s = Host.Core.run core k t := by
  have h' : core.step s = .next t := h
  have hrun := Host.Core.run.eq_2 core s k
  rw [h'] at hrun
  exact hrun

/-- A run stops where its first step faults. -/
theorem run_of_fault {s : State} {r : Fault} (k : Nat) (h : step s = .fault r) :
    Host.Core.run core (k + 1) s = .fault r := by
  have h' : core.step s = .fault r := h
  have hrun := Host.Core.run.eq_2 core s k
  rw [h'] at hrun
  exact hrun

/-- A run of no steps. -/
@[simp] theorem run_zero (s : State) : Host.Core.run core 0 s = .next s := rfl

end Sys2Proof.Machine
end

