-- ==== Sys2Proof/Tests/Slice0.lean ====
section
/-! SUPPORT. The model's own tests, and the witnesses of the statements' hypotheses. Every expected result
comes from spec/95_test_vectors.md (the vector is named), from a rule's own example, or from the arithmetic
written beside it. -/

namespace Sys2Proof.Tests
open Sys2Proof.Machine

/-- The accumulator of a next state. -/
def accOf (o : Host.Outcome State Fault Refusal) : Option Word :=
  match o with
  | .next s => some s.acc
  | .fault _ => none
  | .refused _ => none

/-- The responses of a next state. -/
def responsesOf (o : Host.Outcome State Fault Refusal) : Option (List Response) :=
  match o with
  | .next s => some s.responses
  | .fault _ => none
  | .refused _ => none

/-- The buffer [01 02 03 04] of the spec's vectors. -/
def b4 : Buffer := { present := true, len := 4, bytes := Memory.ofBytes 0 [1#8, 2#8, 3#8, 4#8] }

/-- "Wikipedia". -/
def wiki : Buffer :=
  { present := true, len := 9,
    bytes := Memory.ofBytes 0 [0x57#8, 0x69#8, 0x6B#8, 0x69#8, 0x70#8, 0x65#8, 0x64#8, 0x69#8, 0x61#8] }

/-- A buffer of zero bytes. -/
def zeros (n : Fin (Config.bufLenMax + 1)) : Buffer := { present := true, len := n, bytes := [] }

/-- An idle block with a given accumulator and a buffer on its port. -/
def blockAt (acc : Word) (buf : Buffer) : State := { State.reset with acc := acc, buffer := buf }

/-- A host about to issue commands from power-on. -/
def issuing (cs : List Command) : State := { State.reset with stream := cs }

/-! ### Parameters (R9) -/

theorem test_widths_agree :
    (0 : Word).toNat < 2 ^ Config.accW ∧ Config.accW = 2 * Config.halfW ∧ Config.valueW = Config.accW ∧
      Config.operandW = 32 ∧ Config.bufLenMax = 2 ^ 31 - 1 ∧
      Config.accInit = pack (BitVec.ofNat 16 Config.s2Init) (BitVec.ofNat 16 Config.s1Init) := by decide

theorem test_byte_mask : (dataByte 0x123456AB#32).setWidth 32 = 0x123456AB#32 &&& Config.byteMask := by decide

/-! ### WellFormed refuses what has no packet (R39, R43) -/

theorem test_wf_offset_low : ¬ (Instr.updateRange (-2147483649) 0).WellFormed := by decide
theorem test_wf_offset_high : ¬ (Instr.updateRange 2147483648 0).WellFormed := by decide
theorem test_wf_count_low : ¬ (Instr.updateRange 0 (-2147483649)).WellFormed := by decide
theorem test_wf_count_high : ¬ (Instr.updateRange 0 2147483648).WellFormed := by decide

/-! ### Decoding words written out from R37 and R38 -/

/-- V11: every ignored bit set. -/
theorem test_decode_reset : decode 0x12345678DEADBEEFFFFFFFFC#96 = .reset := by decide

/-- V14: every ignored bit set. -/
theorem test_decode_value : decode 0xFFFFFFFFFFFFFFFFFFFFFFFD#96 = .value := by decide

/-- R43's worked example. -/
theorem test_decode_updateByte : decode 0x000000000000005700000002#96 = .updateByte 0x57#32 := by decide

/-- V20i: W1 = 0x8000_0000 is -2^31; and W2 = 0x7FFF_FFFF (V20h) is 2^31 - 1. -/
theorem test_decode_updateRange :
    decode 0x7FFFFFFF8000000000000003#96 = .updateRange (-2147483648) 2147483647 := by decide

/-- P1 step 2, as the opcode table numbers the bits. -/
theorem test_decode_table_word :
    decodeTableWord 96 0x000000090000000000000003 = some (.updateRange 0 9) := by decide

/-- A row narrower than a packet has zeros above; one wider than a packet is none (R42). -/
theorem test_decode_table_widths :
    decodeTableWord 8 0x02 = some (.updateByte 0#32) ∧ decodeTableWord 104 0x02 = none := by decide

theorem test_decode_two_words : decodeWords [0#32, 0#32] = .error .tooShort := by rfl

/-! ### One step of each command -/

/-- V10: RESET from 0x11E6_0398. -/
theorem test_reset : accOf (exec .reset (blockAt 0x11E60398#32 Buffer.absent)) = some 0x00000001#32 := by decide

/-- V13: VALUE at 0xD722_C9FB. -/
theorem test_value :
    responsesOf (exec .value (blockAt 0xD722C9FB#32 Buffer.absent)) =
      some [{ status := .ok, rdata := 0xD722C9FB#32 }] := by decide

/-- V16b: both sums wrap. -/
theorem test_updateByte_wraps :
    accOf (exec (.updateByte 0x000000FF#32) (blockAt 0xFFF0FFF0#32 Buffer.absent)) =
      some 0x00FD00FE#32 := by decide

/-- V3 as 90_conflicts.md C1 settles it: byte 0 from the initial state gives 0x0001_0001. -/
theorem test_updateByte_zero :
    accOf (exec (.updateByte 0xFFFFFF00#32) State.reset) = some 0x00010001#32 := by decide

/-- V18a: a slice in the middle of a buffer. -/
theorem test_updateRange_slice :
    accOf (exec (.updateRange 2 2) (blockAt 0x00020002#32 b4)) = some 0x00100009#32 := by decide

/-- 3801 zero bytes from S1 = 65520, S2 = 0, so two runs: each byte adds 65520, that is -1 modulo 65521, to S2,
which ends at 65521 - 3801 = 61720 = 0xF118, and S1 stays. -/
theorem test_updateRange_two_runs :
    accOf (exec (.updateRange 0 3801) (blockAt 0x0000FFF0#32 (zeros 3801))) = some 0xF118FFF0#32 := by
  decide +kernel

/-- V20h: the exact sum 1 + 0x7FFF_FFFF passes 4. -/
theorem test_validate_no_wrap : validate b4 1 0x7FFFFFFF = some .outOfRange := by decide

/-- V20e: the absent buffer comes first. -/
theorem test_validate_absent_first : validate Buffer.absent (-1) 5 = some .invalidArgument := by decide

/-- P1, step 2, issued as a packet right after reset. -/
theorem test_step_wikipedia :
    accOf (step (State.withFetchWord { State.reset with buffer := wiki } 96 0x000000090000000000000003)) =
      some 0x11E60398#32 := by decide

/-! ### Witnesses: concrete values that meet the hypotheses of each statement together, at a boundary of each
clause's range where it has one -/

/-- RESET and VALUE as packets with ignored bits set, and the two updates, as the host issues them. -/
def resetCmd : Command := { packet := 0x12345678DEADBEEFFFFFFFFC#96, buffer := b4 }
def valueCmd : Command := { packet := 0xFFFFFFFFFFFFFFFFFFFFFFFD#96, buffer := b4 }
def byteCmd (data : Word) : Command := Command.of (.updateByte data) Buffer.absent
def rangeCmd (offset count : Int) (buf : Buffer) : Command := Command.of (.updateRange offset count) buf

/-- The outcome is a next state. -/
def goesOn (o : Host.Outcome State Fault Refusal) : Bool := (accOf o).isSome

theorem witness_SelectorChoosesCommand :
    packetOp 0xFFFFFFFFFFFFFFFFFFFFFFFC#96 = 0b00#2 ∧ packetOp 0xFFFFFFFFFFFFFFFFFFFFFFFD#96 = 0b01#2 ∧
    packetOp 0xFFFFFFFFFFFFFFFFFFFFFFFE#96 = 0b10#2 ∧ packetOp 0xFFFFFFFFFFFFFFFFFFFFFFFF#96 = 0b11#2 := by
  decide

theorem witness_OperandsAreAssembled :
    packetOp 0x0000000080000000FFFFFFFE#96 = 0b10#2 ∧ packetOp 0x800000007FFFFFFFFFFFFFFF#96 = 0b11#2 ∧
    (0x000001FF#32 &&& 0x000000FF#32) = (0x800000FF#32 &&& 0x000000FF#32) ∧
    0x000001FF#32 ≠ 0x800000FF#32 := by decide

/-- For each `op`, two different packets that agree on all the bits its command uses. -/
theorem witness_IgnoredBitsHaveNoEffect :
    (∃ p q : Packet, p ≠ q ∧ packetOp p = 0b00#2 ∧ packetOp q = 0b00#2) ∧
    (∃ p q : Packet, p ≠ q ∧ packetOp p = 0b01#2 ∧ packetOp q = 0b01#2) ∧
    (∃ p q : Packet, p ≠ q ∧ packetOp p = 0b10#2 ∧ packetOp q = 0b10#2 ∧
      p.extractLsb' 32 8 = q.extractLsb' 32 8) ∧
    (∃ p q : Packet, p ≠ q ∧ packetOp p = 0b11#2 ∧ packetOp q = 0b11#2 ∧
      p.extractLsb' 32 64 = q.extractLsb' 32 64) :=
  ⟨⟨0x0#96, 0xFFFFFFFFFFFFFFFFFFFFFFFC#96, by decide⟩, ⟨0x1#96, 0xFFFFFFFFFFFFFFFFFFFFFFFD#96, by decide⟩,
    ⟨0x57_00000002#96, 0xFFFFFFFFFFFFFF57FFFFFFFE#96, by decide⟩,
    ⟨0x0000000900000000_00000003#96, 0x0000000900000000FFFFFFFF#96, by decide⟩⟩

theorem witness_DecodeUndoesEncode :
    Instr.reset.WellFormed ∧ Instr.value.WellFormed ∧ (Instr.updateByte 0xFFFFFFFF#32).WellFormed ∧
    (Instr.updateRange (-2147483648) 2147483647).WellFormed ∧
    (Instr.updateRange 2147483647 (-2147483648)).WellFormed := by decide

theorem witness_EncodeKeepsOpAndOperandWords :
    packetOp resetCmd.packet = 0b00#2 ∧ packetOp valueCmd.packet = 0b01#2 ∧
    packetOp 0xFFFFFFFFFFFFFFFFFFFFFFFE#96 = 0b10#2 ∧ packetOp 0xFFFFFFFFFFFFFFFFFFFFFFFF#96 = 0b11#2 := by
  decide

theorem witness_OnlyThreeWordsArePackets :
    ([0#32, 0#32] : List Word).length < 3 ∧ 3 < ([0#32, 0#32, 0#32, 0#32] : List Word).length ∧
    ([0#32, 0#32, 0#32] : List Word).length = 3 := by decide

theorem witness_AssemblerMakesTheCommand :
    (Literal.dec (-2147483648)).word = some 0x80000000#32 ∧ (Literal.dec 2147483647).word = some 0x7FFFFFFF#32 ∧
    (Literal.dec 2147483648).word = none ∧ (Literal.dec (-2147483649)).word = none ∧
    (Literal.hex 0xFFFFFFFF).word = some 0xFFFFFFFF#32 ∧ (Literal.hex 0x100000000).word = none ∧
    (BufOperand.named [1#8, 2#8]).buffer.isSome = true ∧ BufOperand.null.buffer = some Buffer.absent := by decide

/-- A byte sequence one longer than BUF_LEN_MAX. -/
theorem witness_AssemblerMakesTheCommand_tooLong :
    Config.bufLenMax < (List.replicate (Config.bufLenMax + 1) 0#8).length := by
  rw [List.length_replicate]; exact Nat.lt_succ_self _

theorem witness_ResetCommand :
    (issuing [resetCmd, valueCmd]).stream = resetCmd :: [valueCmd] ∧ packetOp resetCmd.packet = 0b00#2 ∧
    goesOn (exec .reset State.reset) = true := by decide

theorem witness_ValueCommand :
    (issuing [valueCmd]).stream = valueCmd :: [] ∧ packetOp valueCmd.packet = 0b01#2 ∧
    goesOn (exec .value State.reset) = true := by decide

/-- Reduced accumulators on which S1 and S2 stay, and on which both reach 65521 exactly. -/
theorem witness_UpdaterFormula :
    Reduced 0x00000001#32 ∧ (lowHalf 0x00000001#32).toNat + (0#8).toNat < 65521 ∧
    Reduced 0xFFF0FFF0#32 ∧ 65521 ≤ (lowHalf 0xFFF0FFF0#32).toNat + (1#8).toNat ∧
    (highHalf 0xFFF0FFF0#32).toNat + (lowHalf (upd 0xFFF0FFF0#32 1#8)).toNat < 65521 ∧
    65521 ≤ (highHalf 0xFFF0FFF0#32).toNat + (lowHalf (upd 0xFFF0FFF0#32 2#8)).toNat := by decide

theorem witness_UpdateByteCommand :
    (issuing [byteCmd 0x57#32]).stream = byteCmd 0x57#32 :: [] ∧ packetOp (byteCmd 0x57#32).packet = 0b10#2 ∧
    Reduced (blockAt 0xFFF0FFF0#32 b4).acc ∧
    (blockAt 0xFFF0FFF0#32 b4).s1.toNat + (dataByte 1#32).toNat = 65521 ∧
    accOf (exec (.updateByte 1#32) (blockAt 0xFFF0FFF0#32 b4)) = some 0xFFF00000#32 ∧
    (blockAt 0xFFF0FFF0#32 b4).s1 = 65520#16 ∧ dataByte 0xFF#32 = 255#8 ∧
    (blockAt 0xFFF0FFF0#32 b4).s2 = 65520#16 ∧
    accOf (exec (.updateByte 2#32) (blockAt 0xFFF0FFF0#32 b4)) = some 0x00000001#32 := by decide

theorem witness_ByteIsOneByteRange :
    ∃ buf : Buffer, buf.present = true ∧ buf.len.val = 1 ∧ buf.memRead 0 = some (dataByte 0xFFFFFF57#32) :=
  ⟨{ present := true, len := 1, bytes := [(0, 0x57#8)] }, by decide⟩

theorem witness_UpdateRangeCommand :
    Accepted b4 3 1 ∧ Accepted b4 0 4 ∧ Accepted b4 3 0 ∧ Buffer.absent.present = false ∧
    (b4.present = true ∧ ¬ Accepted b4 4 0) ∧ (issuing [rangeCmd 0 9 wiki]).stream = rangeCmd 0 9 wiki :: [] ∧
    packetOp (rangeCmd 0 9 wiki).packet = 0b11#2 := by decide

/-- One operand pair for each check of R50, each at the check's boundary, and one that passes all. -/
theorem witness_ValidationOrder :
    Buffer.absent.present = false ∧ b4.present = true ∧ (-1 : Int) < 0 ∧ (4 : Int) ≥ b4.len.val ∧
    (1 : Int) + 4 > b4.len.val ∧ (0 ≤ (3 : Int) ∧ 0 ≤ (1 : Int) ∧ (3 : Int) < b4.len.val ∧
      (3 : Int) + 1 ≤ b4.len.val) := by decide

theorem witness_RunSumsNeverWrap :
    Reduced 0xFFF0FFF0#32 ∧
    ∃ r r' : Sums 32, r.rs1.toNat = 65520 ∧ r.rs2.toNat = 65520 ∧ sumRun (zeros 3800) 3800 0 r = some r' :=
  ⟨by decide, { rs1 := 65520#32, rs2 := 65520#32 }, _, by decide, by decide, sumRun_of_range _ rfl (by decide)⟩

/-- Both sides of the equivalence, on a run of 3800 bytes of 0xFF. -/
theorem witness_RunBoundsReachedExactly :
    ∃ (buf : Buffer) (r r' : Sums 32), r.rs1.toNat = 65520 ∧ r.rs2.toNat = 65520 ∧
      sumRun buf 3800 0 r = some r' ∧ ∀ b ∈ buf.slice 0 3800, b = 0xFF#8 := by
  have hlen : (List.replicate 3800 0xFF#8).length ≤ Config.bufLenMax := by
    rw [List.length_replicate]; decide
  refine ⟨Buffer.ofBytes (List.replicate 3800 0xFF#8) hlen, { rs1 := 65520#32, rs2 := 65520#32 }, _,
    by decide, by decide, sumRun_of_range _ rfl ?_, fun b hb => ?_⟩
  · show 0 + 3800 ≤ (List.replicate 3800 0xFF#8).length
    rw [List.length_replicate]
  · obtain ⟨k, -, hk, rfl⟩ := mem_slice hb
    have hk' : k < (List.replicate 3800 0xFF#8).length := by rw [List.length_replicate]; omega
    rw [(memRead_eq_some.mp (memRead_ofBytes _ hlen k hk')).2.2, List.getElem_replicate]

/-- The longest run for 32 bits, and the shortest with the narrowest sums. -/
theorem witness_OtherEnginesAgree :
    (1 ≤ 5552 ∧ 65520 * (5552 + 1) + 255 * 5552 * (5552 + 1) / 2 ≤ 2 ^ 32 - 1) ∧
    (1 ≤ 1 ∧ 65520 * (1 + 1) + 255 * 1 * (1 + 1) / 2 ≤ 2 ^ 18 - 1) ∧
    Reduced 0xFFF0FFF0#32 ∧ b4.present = true ∧ 0 + 4 ≤ b4.len.val := by decide

theorem witness_ZeroCountChangesNothing : b4.present = true ∧ (0 : Int) ≤ 3 ∧ (3 : Int) < b4.len.val := by decide

theorem witness_OffsetAtEndFails :
    b4.present = true ∧ ((zeros 0).present = true ∧ (zeros 0).len.val = 0) ∧ Buffer.absent.present = false := by
  decide

theorem witness_BoundSumIsExact :
    (b4.present = true ∧ (0 : Int) ≤ 1 ∧ (0 : Int) ≤ 0x7FFFFFFF ∧ (b4.len.val : Int) < 1 + 0x7FFFFFFF) ∧
    b4.len.val = 4 ∧ (0 ≤ sint32 0x7FFFFFFF#32 ∧ 0 ≤ sint32 0#32) ∧
    (Accepted b4 1 3 ∧ (1 : Int) ≤ (3 : Nat) ∧ ((3 : Nat) : Int) < 1 + 3) := by decide

/-- Two buffers that differ outside the range, and two that differ everywhere under a rejected command. -/
theorem witness_RangeReadsOnlyItsBytes :
    ∃ buf buf' : Buffer, buf ≠ buf' ∧ buf.present = buf'.present ∧ buf.len = buf'.len ∧ Accepted buf 1 2 ∧
      (∀ k : Nat, (1 : Int) ≤ k → (k : Int) < 1 + 2 → buf.bytes.read k = buf'.bytes.read k) ∧
      ¬ Accepted buf 4 0 := by
  refine ⟨{ b4 with bytes := [(0, 9#8), (1, 2#8)] }, { b4 with bytes := [(1, 2#8), (3, 7#8)] },
    by decide, rfl, rfl, by decide, fun k h1 h2 => ?_, by decide⟩
  have : k = 1 ∨ k = 2 := by omega
  rcases this with rfl | rfl <;> decide

/-- P2's commands, with a VALUE and a rejected range among them, feed "Wikipedia". -/
theorem witness_ChunkingInvariance :
    let cs := [byteCmd 0x57#32, valueCmd, rangeCmd 1 3 wiki, rangeCmd 9 0 wiki, rangeCmd 4 5 wiki]
    let whole := [0x57#8, 0x69#8, 0x6B#8, 0x69#8, 0x70#8, 0x65#8, 0x64#8, 0x69#8, 0x61#8]
    (∀ c ∈ (issuing cs).stream, packetOp c.packet ≠ 0b00#2) ∧ (issuing cs).stream.flatMap Command.feeds = whole ∧
    whole ≠ [] ∧ whole.length ≤ Config.bufLenMax ∧ packetOp valueCmd.packet = 0b01#2 ∧
    packetOp (byteCmd 0x57#32).packet = 0b10#2 ∧ packetOp (rangeCmd 9 0 wiki).packet = 0b11#2 ∧
    ¬ Accepted wiki 9 0 ∧ Accepted wiki 4 5 := by decide

theorem witness_ErrorChangesNothing :
    ∃ t r, exec (.updateRange 4 0) (blockAt 0x00020002#32 b4) = .next t ∧ t.responses = [] ++ [r] ∧
      r.status ≠ .ok := ⟨_, { status := .outOfRange, rdata := 0#32 }, rfl, rfl, by decide⟩

theorem witness_FailedCommandCouldBeLeftOut :
    ∃ t r, (issuing [rangeCmd 4 0 b4, valueCmd]).stream = rangeCmd 4 0 b4 :: [valueCmd] ∧
      step (issuing [rangeCmd 4 0 b4, valueCmd]) = .next t ∧ t.responses = [] ++ [r] ∧ r.status ≠ .ok :=
  ⟨_, { status := .outOfRange, rdata := 0#32 }, rfl, rfl, rfl, by decide⟩

theorem witness_OthersIgnoreTheBuffer :
    (∀ offset count, Instr.updateByte 0x57#32 ≠ .updateRange offset count) ∧
      ∃ t, exec (.updateByte 0x57#32) State.reset = .next t :=
  ⟨fun _ _ => Instr.noConfusion, _, rfl⟩

/-- Two states that differ in everything but the accumulator and the stream. -/
theorem witness_OnlyTheAccumulatorPersists :
    ∃ s s' : State, s ≠ s' ∧ s.acc = s'.acc ∧ s.stream = valueCmd :: [] ∧ s'.stream = valueCmd :: [] :=
  ⟨issuing [valueCmd],
    { issuing [valueCmd] with buffer := b4, responses := [{ status := .outOfRange, rdata := 0#32 }] }, by decide⟩

theorem witness_StepKeepsTheInvariant :
    State.Inv { issuing [rangeCmd 2 2 b4] with responses := [{ status := .outOfRange, rdata := 0#32 }] } ∧
      ∃ t, step { issuing [rangeCmd 2 2 b4] with responses := [{ status := .outOfRange, rdata := 0#32 }] } =
        .next t :=
  ⟨⟨by decide, by decide, by decide, by decide, by decide⟩, _, rfl⟩

theorem witness_ReducedAtEveryBoundary : Reduced (blockAt 0xFFF0FFF0#32 b4).acc := by decide

theorem witness_StepRunsTheDecodedCommand :
    (issuing [rangeCmd 0 9 wiki]).stream = rangeCmd 0 9 wiki :: [] ∧ decodeTableWord 96 0x1 = some .value := by
  decide

theorem witness_IdleKeepsEverything : (blockAt 0x11E60398#32 b4).stream = [] := by decide

theorem witness_ResetStartsAfresh :
    (issuing [resetCmd, byteCmd 1#32, valueCmd]).stream = resetCmd :: [byteCmd 1#32, valueCmd] ∧
      packetOp resetCmd.packet = 0b00#2 := by decide

theorem witness_ValueSeesThePrecedingCommand :
    (issuing [byteCmd 1#32, valueCmd]).stream = byteCmd 1#32 :: valueCmd :: [] ∧
      packetOp valueCmd.packet = 0b01#2 := by decide

/-- Two listings made in two ways that are canonical and read the same; and two that are not canonical. -/
theorem witness_CanonicalListingsAreUnique :
    ∃ m m' : Memory, m = [(0, 1#8), (2, 3#8)] ∧ m' = Memory.ofBytes 0 [1#8, 0#8, 3#8, 0#8] ∧
      m.wf = true ∧ m'.wf = true ∧ (∀ k : Nat, m.read k = m'.read k) ∧
      ¬ Memory.wf [(0, 0#8)] = true ∧ ¬ Memory.wf [(2, 3#8), (0, 1#8)] = true :=
  ⟨_, _, rfl, rfl, by decide, by decide, fun _ => rfl, by decide, by decide⟩

end Sys2Proof.Tests
end

section
/-! SUPPORT. The packed word: as `(S2 << 16) | S1`, as a number, and how large it is when reduced. -/

namespace Sys2Proof.Machine

/-- `{s2, s1} = (s2 << 16) | s1` (R11). -/
theorem pack_eq_shiftLeft_or (s2 s1 : Half) :
    pack s2 s1 = (s2.setWidth 32 <<< 16) ||| s1.setWidth 32 := by
  apply BitVec.eq_of_getLsbD_eq
  intro i hi
  rw [getLsbD_pack]
  split
  · simp [*]
  · have hs1 : s1.getLsbD i = false := BitVec.getLsbD_of_ge _ _ (by omega)
    simp [*]

theorem toNat_eq_halves (acc : Word) :
    acc.toNat = (highHalf acc).toNat * 65536 + (lowHalf acc).toNat := by
  have h : (pack (highHalf acc) (lowHalf acc)).toNat =
      (highHalf acc).toNat * 2 ^ 16 + (lowHalf acc).toNat := by
    rw [pack, BitVec.toNat_append, Nat.shiftLeft_eq, Nat.mul_comm,
      Nat.two_pow_add_eq_or_of_lt (lowHalf acc).isLt]
  simpa using h

theorem Reduced.toNat_le {acc : Word} (h : Reduced acc) : acc.toNat ≤ 0xFFF0FFF0 := by
  obtain ⟨hlow, hhigh⟩ := h
  have := toNat_eq_halves acc
  simp only [Config.modulus] at hlow hhigh
  omega

theorem reduced_accInit : Reduced Config.accInit := by decide

theorem reduced_upd (acc : Word) (b : Byte) : Reduced (upd acc b) := by
  constructor
  · rw [lowHalf_upd]; exact nextS1_lt _ _
  · rw [highHalf_upd]; exact nextS2_lt _ _

@[simp] theorem foldUpd_nil (acc : Word) : foldUpd acc [] = acc := rfl

@[simp] theorem foldUpd_cons (acc : Word) (b : Byte) (bs : List Byte) :
    foldUpd acc (b :: bs) = foldUpd (upd acc b) bs := rfl

theorem foldUpd_append (acc : Word) (as bs : List Byte) :
    foldUpd acc (as ++ bs) = foldUpd (foldUpd acc as) bs := List.foldl_append

/-- Folding keeps R18's invariant. -/
theorem reduced_foldUpd {acc : Word} (bs : List Byte) (h : Reduced acc) : Reduced (foldUpd acc bs) := by
  induction bs generalizing acc with
  | nil => exact h
  | cons b bs ih => exact ih (reduced_upd acc b)

/-- One byte is enough to reduce a word, whatever it was before. -/
theorem reduced_foldUpd_of_ne_nil (acc : Word) {bs : List Byte} (h : bs ≠ []) : Reduced (foldUpd acc bs) := by
  cases bs with
  | nil => exact absurd rfl h
  | cons b bs => exact reduced_foldUpd bs (reduced_upd acc b)

end Sys2Proof.Machine
end

section
/-! SUPPORT. The sums over unbounded integers: they only grow, how far they can grow (R52), that words wide
enough for them hold them exactly, and that modulo 65521 they are the folded updater (R53). -/

namespace Sys2Proof.Machine

theorem le_exactSums (s1 s2 : Nat) (bs : List Byte) :
    s1 ≤ (exactSums s1 s2 bs).1 ∧ s2 ≤ (exactSums s1 s2 bs).2 := by
  induction bs generalizing s1 s2 with
  | nil => exact ⟨le_rfl, le_rfl⟩
  | cons b bs ih =>
    obtain ⟨h1, h2⟩ := ih (s1 + b.toNat) (s2 + (s1 + b.toNat))
    rw [exactSums_cons]
    omega

theorem exactSums_fst_le (s1 s2 : Nat) (bs : List Byte) :
    (exactSums s1 s2 bs).1 ≤ s1 + 255 * bs.length := by
  induction bs generalizing s1 s2 with
  | nil => exact le_rfl
  | cons b bs ih =>
    have := ih (s1 + b.toNat) (s2 + (s1 + b.toNat))
    rw [exactSums_cons, List.length_cons]
    omega

/-- Doubled, so that the triangular sum of R52 needs no division. -/
theorem two_mul_exactSums_snd_le (s1 s2 : Nat) (bs : List Byte) :
    2 * (exactSums s1 s2 bs).2 ≤
      2 * (s2 + s1 * bs.length) + 255 * (bs.length * (bs.length + 1)) := by
  induction bs generalizing s1 s2 with
  | nil => simp
  | cons b bs ih =>
    have hb : b.toNat * (bs.length + 1) ≤ 255 * (bs.length + 1) := Nat.mul_le_mul_right _ (by omega)
    have := ih (s1 + b.toNat) (s2 + (s1 + b.toNat))
    rw [exactSums_cons, List.length_cons]
    linarith

/-- Where the exact sums fit the width, no add has wrapped: the sums only grow, so every sum on the way fits too. -/
theorem foldl_addByte_toNat {w : Nat} (r : Sums w) (bs : List Byte)
    (h1 : (exactSums r.rs1.toNat r.rs2.toNat bs).1 < 2 ^ w)
    (h2 : (exactSums r.rs1.toNat r.rs2.toNat bs).2 < 2 ^ w) :
    ((bs.foldl Sums.addByte r).rs1.toNat, (bs.foldl Sums.addByte r).rs2.toNat) =
      exactSums r.rs1.toNat r.rs2.toNat bs := by
  induction bs generalizing r with
  | nil => rfl
  | cons b bs ih =>
    rw [exactSums_cons] at h1 h2 ⊢
    obtain ⟨hle1, hle2⟩ := le_exactSums (r.rs1.toNat + b.toNat) (r.rs2.toNat + (r.rs1.toNat + b.toNat)) bs
    have hrs1 : (r.addByte b).rs1.toNat = r.rs1.toNat + b.toNat := by
      have hb : b.toNat % 2 ^ w = b.toNat := Nat.mod_eq_of_lt (by omega)
      simp only [Sums.addByte, zextByte, BitVec.toNat_add, BitVec.toNat_setWidth, hb]
      exact Nat.mod_eq_of_lt (by omega)
    have hrs2 : (r.addByte b).rs2.toNat = r.rs2.toNat + (r.rs1.toNat + b.toNat) := by
      have : (r.addByte b).rs2 = r.rs2 + (r.addByte b).rs1 := rfl
      rw [this, BitVec.toNat_add, hrs1]
      exact Nat.mod_eq_of_lt (by omega)
    rw [← hrs2, ← hrs1] at h1 h2 ⊢
    exact ih (r.addByte b) h1 h2

/-- The exact sums and the updater's halves stay congruent, byte by byte (R53). -/
theorem exactSums_modEq_foldUpd {s1 s2 : Nat} {acc : Word} (bs : List Byte)
    (h1 : s1 ≡ (lowHalf acc).toNat [MOD Config.modulus]) (h2 : s2 ≡ (highHalf acc).toNat [MOD Config.modulus]) :
    (exactSums s1 s2 bs).1 ≡ (lowHalf (foldUpd acc bs)).toNat [MOD Config.modulus] ∧
      (exactSums s1 s2 bs).2 ≡ (highHalf (foldUpd acc bs)).toNat [MOD Config.modulus] := by
  induction bs generalizing s1 s2 acc with
  | nil => exact ⟨h1, h2⟩
  | cons b bs ih =>
    have hs1 : s1 + b.toNat ≡ (lowHalf (upd acc b)).toNat [MOD Config.modulus] := by
      rw [lowHalf_upd]
      exact (h1.add_right _).trans (Nat.mod_modEq _ _).symm
    refine ih hs1 ?_
    rw [highHalf_upd, ← lowHalf_upd]
    exact (h2.add hs1).trans (Nat.mod_modEq _ _).symm

end Sys2Proof.Machine
end

section
/-! SUPPORT. The engine's outer loop, and R53: an engine whose adds cannot wrap folds the updater over the bytes of
its range. -/

namespace Sys2Proof.Machine

/-- The engine's sums are the two halves of the accumulator: what holds at the start of each run (R52, R53). -/
structure Sums.Holds {w : Nat} (r : Sums w) (acc : Word) : Prop where
  rs1_eq : r.rs1.toNat = (lowHalf acc).toNat
  rs2_eq : r.rs2.toNat = (highHalf acc).toNat

/-- Both halves of a word are at most `bound`. -/
def HalvesAtMost (bound : Nat) (acc : Word) : Prop :=
  (lowHalf acc).toNat ≤ bound ∧ (highHalf acc).toNat ≤ bound

/-- R58's condition with the bound on the sums at the start of a run left open: R58 has 65520, and a word that need not
be reduced 65535. -/
structure NeverWraps (batch w bound : Nat) : Prop where
  one_le_batch : 1 ≤ batch
  le_bound : 65520 ≤ bound
  lt_two_pow : bound * (batch + 1) + 255 * batch * (batch + 1) / 2 < 2 ^ w

theorem neverWraps_hardware : NeverWraps Config.batch Config.engW 65535 := ⟨by decide, by decide, by decide⟩

theorem halvesAtMost_max (acc : Word) : HalvesAtMost 65535 acc := by
  constructor <;> omega

theorem Reduced.halvesAtMost {acc : Word} {bound : Nat} (h : Reduced acc) (hb : 65520 ≤ bound) :
    HalvesAtMost bound acc := by
  obtain ⟨hlow, hhigh⟩ := h
  simp only [Config.modulus] at hlow hhigh
  constructor <;> omega

variable {batch w bound : Nat}

/-- A width that holds a run's sums holds any two halves, and the modulus. -/
theorem NeverWraps.two_pow_sixteen_le (h : NeverWraps batch w bound) : 2 ^ 16 ≤ 2 ^ w := by
  obtain ⟨hbatch, hbound, hlt⟩ := h
  have : 65520 * 2 ≤ bound * (batch + 1) := Nat.mul_le_mul hbound (by omega)
  omega

theorem Sums.Holds.ofAcc (h : NeverWraps batch w bound) (acc : Word) : (Sums.ofAcc w acc).Holds acc := by
  have := h.two_pow_sixteen_le
  constructor <;>
  · simp only [Sums.ofAcc, zextHalf, BitVec.toNat_setWidth]
    exact Nat.mod_eq_of_lt (by omega)

theorem Sums.Holds.toAcc_eq {r : Sums w} {acc : Word} (h : r.Holds acc) : r.toAcc = acc := by
  obtain ⟨h1, h2⟩ := h
  apply word_ext
  · simp only [Sums.toAcc, highHalf_pack, BitVec.toNat_setWidth, h2]
    exact Nat.mod_eq_of_lt (highHalf acc).isLt
  · simp only [Sums.toAcc, lowHalf_pack, BitVec.toNat_setWidth, h1]
    exact Nat.mod_eq_of_lt (lowHalf acc).isLt

/-- No add of a run wraps (R52). -/
theorem NeverWraps.exactSums_lt (h : NeverWraps batch w bound) {s1 s2 : Nat} {bs : List Byte}
    (h1 : s1 ≤ bound) (h2 : s2 ≤ bound) (hlen : bs.length ≤ batch) :
    (exactSums s1 s2 bs).1 < 2 ^ w ∧ (exactSums s1 s2 bs).2 < 2 ^ w := by
  obtain ⟨hbatch, -, hlt⟩ := h
  have hs1 := exactSums_fst_le s1 s2 bs
  have hs2 := two_mul_exactSums_snd_le s1 s2 bs
  have hlin : s1 * bs.length ≤ bound * batch := Nat.mul_le_mul h1 hlen
  have hsq : bs.length * (bs.length + 1) ≤ batch * (batch + 1) := Nat.mul_le_mul hlen (by omega)
  have htri : batch * 2 ≤ batch * (batch + 1) := Nat.mul_le_mul_left _ (by omega)
  rw [Nat.mul_assoc, Nat.mul_succ] at hlt
  constructor <;> omega

theorem Sums.reduce_toNat (h : NeverWraps batch w bound) (r : Sums w) :
    r.reduce.rs1.toNat = r.rs1.toNat % Config.modulus ∧ r.reduce.rs2.toNat = r.rs2.toNat % Config.modulus := by
  have hm : Config.modulus % 2 ^ w = Config.modulus :=
    Nat.mod_eq_of_lt (Nat.lt_of_lt_of_le (by decide) h.two_pow_sixteen_le)
  constructor <;> simp only [Sums.reduce, BitVec.toNat_umod, BitVec.toNat_ofNat, hm]

/-- One run and its reduction: from the halves of `acc` to the halves of the bytes folded in. -/
theorem Sums.Holds.reduce_run (h : NeverWraps batch w bound) {r : Sums w} {acc : Word} {bs : List Byte}
    (hr : r.Holds acc) (hacc : HalvesAtMost bound acc) (hlen : bs.length ≤ batch) (hne : bs ≠ []) :
    (bs.foldl Sums.addByte r).reduce.Holds (foldUpd acc bs) := by
  obtain ⟨hr1, hr2⟩ := hr
  obtain ⟨hlow, hhigh⟩ := hacc
  obtain ⟨hlt1, hlt2⟩ := h.exactSums_lt (hr1 ▸ hlow) (hr2 ▸ hhigh) hlen
  obtain ⟨hexact1, hexact2⟩ := Prod.mk.inj (foldl_addByte_toNat r bs hlt1 hlt2)
  obtain ⟨hmod1, hmod2⟩ := exactSums_modEq_foldUpd (acc := acc) bs (congrArg (· % _) hr1) (congrArg (· % _) hr2)
  obtain ⟨hred1, hred2⟩ := reduced_foldUpd_of_ne_nil acc hne
  obtain ⟨hreduce1, hreduce2⟩ := Sums.reduce_toNat h (bs.foldl Sums.addByte r)
  constructor
  · rw [hreduce1, hexact1, hmod1, Nat.mod_eq_of_lt hred1]
  · rw [hreduce2, hexact2, hmod2, Nat.mod_eq_of_lt hred2]

/-- The outer loop over a readable range (R53), by the turns it takes. -/
theorem runLoop_holds_foldUpd (h : NeverWraps batch w bound) {buf : Buffer} {fuel rem i : Nat} {r : Sums w} {acc : Word}
    (hp : buf.present = true) (hi : i + rem ≤ buf.len.val) (hfuel : rem ≤ fuel)
    (hr : r.Holds acc) (hacc : HalvesAtMost bound acc) :
    ∃ r', runLoop batch buf fuel rem i r = some r' ∧ r'.Holds (foldUpd acc (buf.slice i rem)) := by
  induction fuel generalizing rem i r acc with
  | zero =>
    obtain rfl : rem = 0 := Nat.le_zero.mp hfuel
    exact ⟨r, runLoop_zero .., hr⟩
  | succ fuel ih =>
    by_cases h0 : rem = 0
    · subst h0
      exact ⟨r, runLoop_zero .., hr⟩
    have hbatch := h.one_le_batch
    generalize hn : min batch rem = n
    have hne : buf.slice i n ≠ [] := by
      apply List.ne_nil_of_length_pos
      rw [slice_length]
      omega
    have hrun := hr.reduce_run h hacc (by rw [slice_length]; omega) hne
    have hslice : buf.slice i rem = buf.slice i n ++ buf.slice (i + n) (rem - n) := by
      rw [← slice_add, Nat.add_sub_of_le (by omega)]
    rw [runLoop_succ _ _ _ _ _ _ h0, hn, sumRun_of_range r hp (by omega), hslice, foldUpd_append]
    exact ih (by omega) (by omega) hrun ((reduced_foldUpd_of_ne_nil acc hne).halvesAtMost h.le_bound)

/-- R53, for every engine that cannot wrap: its result is the updater folded over the bytes one at a time. -/
theorem engineWith_eq_foldUpd (h : NeverWraps batch w bound) {buf : Buffer} {acc : Word} {offset count : Nat}
    (hp : buf.present = true) (hi : offset + count ≤ buf.len.val) (hacc : HalvesAtMost bound acc) :
    engineWith batch w buf acc offset count = some (foldUpd acc (buf.slice offset count)) := by
  obtain ⟨r, hloop, hr⟩ := runLoop_holds_foldUpd h hp hi le_rfl (Sums.Holds.ofAcc h acc) hacc
  rw [engineWith, hloop, ← hr.toAcc_eq]

/-- R53, for this hardware's engine, on every accumulator. -/
theorem engine_eq_foldUpd {buf : Buffer} (acc : Word) {offset count : Nat}
    (hp : buf.present = true) (hi : offset + count ≤ buf.len.val) :
    engine buf acc offset count = some (foldUpd acc (buf.slice offset count)) :=
  engineWith_eq_foldUpd neverWraps_hardware hp hi (halvesAtMost_max acc)

end Sys2Proof.Machine
end

section
/-! SUPPORT. What every command does, in one equation, and the induction over a run. -/

namespace Sys2Proof.Machine

/-- UPDATE_RANGE accepted (R49). -/
theorem execUpdateRange_of_accepted {s : State} {offset count : Int} (h : Accepted s.buffer offset count) :
    execUpdateRange offset count s =
      .next ((s.setAcc (foldUpd s.acc (s.buffer.slice offset.toNat count.toNat))).respond .ok 0#32) := by
  obtain ⟨hp, hoff, hcount, -, hsum⟩ := id h
  exact execUpdateRange_accepted (validate_eq_none.mpr h) (engine_eq_foldUpd s.acc hp (by unfold indexOf; omega))

/-- Every command, on every state: the accumulator and the response it gives, and nothing else changes. -/
theorem exec_eq (i : Instr) (s : State) :
    exec i s = .next { s with acc := accAfter i s, responses := s.responses ++ [responseOf i s] } := by
  cases i with
  | reset => rfl
  | value => rfl
  | updateByte data => rfl
  | updateRange offset count =>
    by_cases h : Accepted s.buffer offset count
    · have hv := validate_eq_none.mpr h
      simp only [accAfter, responseOf, fedBytes, if_pos h, hv]
      exact execUpdateRange_of_accepted h
    · obtain ⟨e, hv⟩ := Option.ne_none_iff_exists'.mp (mt validate_eq_none.mp h)
      simp only [accAfter, responseOf, fedBytes, if_neg h, hv]
      exact execUpdateRange_rejected hv

/-- Every command leaves a reduced accumulator reduced (R18). -/
theorem reduced_accAfter {s : State} (i : Instr) (h : Reduced s.acc) : Reduced (accAfter i s) := by
  cases i with
  | reset => exact reduced_accInit
  | value => exact h
  | updateByte data => exact reduced_foldUpd _ h
  | updateRange offset count => exact reduced_foldUpd _ h

/-- A step never stops, and keeps R18's invariant. -/
theorem step_keeps_reduced {s : State} (h : Reduced s.acc) : ∃ t, step s = .next t ∧ Reduced t.acc := by
  cases hs : s.stream with
  | nil => exact ⟨s, step_of_nil hs, h⟩
  | cons c rest =>
    rw [step_of_cons hs, exec_eq]
    exact ⟨_, rfl, reduced_accAfter (decode c.packet) h⟩

/-- The induction over a run: where every step goes on and keeps `P`, every run goes to its end and keeps `P`. -/
theorem run_keeps {P : State → Prop} (hstep : ∀ s, P s → ∃ t, step s = .next t ∧ P t) {s : State} (k : Nat)
    (h : P s) : ∃ t, Host.Core.run core k s = .next t ∧ P t := by
  induction k generalizing s with
  | zero => exact ⟨s, run_zero s, h⟩
  | succ k ih =>
    obtain ⟨t, hs, ht⟩ := hstep s h
    rw [run_of_next k hs]
    exact ih ht

end Sys2Proof.Machine
end

section
/-! THEOREM. The statements about the architectural state (10_state.md). -/

namespace Sys2Proof.Machine

/-- Settles O36: every step keeps both sums reduced, so every run does; the bounds on `ACC` follow. -/
theorem reducedAtEveryBoundary : Obligations.ReducedAtEveryBoundary := by
  unfold Obligations.ReducedAtEveryBoundary
  refine ⟨reduced_accInit, fun s k h => ?_⟩
  obtain ⟨t, hrun, ht⟩ := run_keeps (P := fun s => Reduced s.acc) (fun _ => step_keeps_reduced) k h
  obtain ⟨hlow, hhigh⟩ := id ht
  exact ⟨t, hrun, hlow, hhigh, ht.toNat_le, hlow, hhigh⟩

/-- Settles O9: both at reset and after RESET the accumulator is `Config.accInit`. -/
theorem initialAccumulator : Obligations.InitialAccumulator := by
  unfold Obligations.InitialAccumulator
  have hs1 : lowHalf 0x00000001#32 = 1#16 := by decide
  have hs2 : highHalf 0x00000001#32 = 0#16 := by decide
  exact ⟨reset_acc, hs1, hs2, fun s => ⟨_, exec_eq .reset s, rfl, hs1, hs2⟩⟩

/-- Settles O11: a word is its two halves packed, and VALUE answers that word. -/
theorem packedLayout : Obligations.PackedLayout := by
  unfold Obligations.PackedLayout
  intro s
  have hpack : pack s.s2 s.s1 = s.acc := pack_halves s.acc
  refine ⟨rfl, rfl, ?_, ?_⟩
  · rw [← pack_eq_shiftLeft_or, hpack]
  · rw [exec_eq, ← pack, hpack]
    rfl

end Sys2Proof.Machine
end

section
/-! SUPPORT. Fields of words: a field of a field, and the low bits of a word as its mask. -/

namespace Sys2Proof

variable {w n : Nat}

/-- A field of a field is a field of the word. -/
theorem extractLsb'_of_extractLsb' (x : BitVec w) {start len start' len' : Nat} (h : start' + len' ≤ len) :
    (x.extractLsb' start len).extractLsb' start' len' = x.extractLsb' (start + start') len' := by
  ext i hi
  simp [show start' + i < len by omega, Nat.add_assoc]

/-- The low `n` bits of a word are the word masked. -/
theorem setWidth_lowBits (x : BitVec w) :
    (x.extractLsb' 0 n).setWidth w = x &&& BitVec.ofNat w (2 ^ n - 1) := by
  apply BitVec.eq_of_getLsbD_eq
  intro i hi
  rw [BitVec.getLsbD_and, BitVec.getLsbD_ofNat, Nat.testBit_two_pow_sub_one]
  simp [hi, Bool.and_comm]

/-- A masked word is a given value exactly when its low bits are. -/
theorem and_mask_eq_iff {x : BitVec w} {y : BitVec n} (h : n ≤ w) :
    x &&& BitVec.ofNat w (2 ^ n - 1) = y.setWidth w ↔ x.extractLsb' 0 n = y := by
  rw [← setWidth_lowBits]
  refine ⟨fun heq => ?_, fun heq => by rw [heq]⟩
  have hn := congrArg (BitVec.setWidth n) heq
  rwa [BitVec.setWidth_setWidth_of_le _ h, BitVec.setWidth_setWidth_of_le _ h, BitVec.setWidth_eq,
    BitVec.setWidth_eq] at hn

end Sys2Proof
end

section
/-! SUPPORT. The decoder the other way round: which `op`, and which masked packet, a command comes from; and which
packet bits the decoder looks at. -/

namespace Sys2Proof

/-- The `op` of a command's packets (R38). -/
def Instr.op (i : Instr) : BitVec 2 :=
  match i with
  | .reset => 0b00#2
  | .value => 0b01#2
  | .updateByte _ => 0b10#2
  | .updateRange _ _ => 0b11#2

/-- The decoded command tells its packet's `op`. -/
@[simp] theorem op_decode (p : Packet) : (decode p).op = packetOp p := by
  rcases op_cases (packetOp p) with h | h | h | h
  · rw [decode_of_op_reset h, h]; rfl
  · rw [decode_of_op_value h, h]; rfl
  · rw [decode_of_op_updateByte h, h]; rfl
  · rw [decode_of_op_updateRange h, h]; rfl

theorem packetOp_of_decode {p : Packet} {i : Instr} (h : decode p = i) : packetOp p = i.op := by
  rw [← op_decode, h]

theorem packetOp_eq_reset_iff {p : Packet} : packetOp p = 0b00#2 ↔ decode p = .reset :=
  ⟨decode_of_op_reset, packetOp_of_decode⟩

theorem packetOp_eq_value_iff {p : Packet} : packetOp p = 0b01#2 ↔ decode p = .value :=
  ⟨decode_of_op_value, packetOp_of_decode⟩

theorem packetOp_eq_updateByte_iff {p : Packet} : packetOp p = 0b10#2 ↔ ∃ data, decode p = .updateByte data :=
  ⟨fun h => ⟨_, decode_of_op_updateByte h⟩, fun ⟨_, h⟩ => packetOp_of_decode h⟩

theorem packetOp_eq_updateRange_iff {p : Packet} :
    packetOp p = 0b11#2 ↔ ∃ offset count, decode p = .updateRange offset count :=
  ⟨fun h => ⟨_, _, decode_of_op_updateRange h⟩, fun ⟨_, _, h⟩ => packetOp_of_decode h⟩

theorem packetOp_eq_extractLsb' (p : Packet) : packetOp p = p.extractLsb' 0 2 :=
  extractLsb'_of_extractLsb' p (by decide)

/-- The opcode table's mask picks out `op` (R38). -/
theorem and_opMask_eq_iff {p : Packet} (x : BitVec 2) : p &&& 0x3#96 = x.setWidth 96 ↔ packetOp p = x := by
  rw [packetOp_eq_extractLsb']
  exact and_mask_eq_iff (n := 2) (w := 96) (by decide)

/-- Packets that agree on bits [95:32] have the same operand words. -/
theorem operandWords_congr {p q : Packet} (h : p.extractLsb' 32 64 = q.extractLsb' 32 64) :
    packetW1 p = packetW1 q ∧ packetW2 p = packetW2 q := by
  have h1 := congrArg (BitVec.extractLsb' 0 32) h
  have h2 := congrArg (BitVec.extractLsb' 32 32) h
  simp only [extractLsb'_of_extractLsb' _ (show 0 + 32 ≤ 64 by decide)] at h1
  simp only [extractLsb'_of_extractLsb' _ (show 32 + 32 ≤ 64 by decide)] at h2
  exact ⟨h1, h2⟩

/-- What the decoder makes of three words (R38, R39). -/
theorem decode_packetOf (w0 w1 w2 : Word) :
    decode (packetOf w0 w1 w2) = .reset ∨ decode (packetOf w0 w1 w2) = .value ∨
      decode (packetOf w0 w1 w2) = .updateByte w1 ∨
      decode (packetOf w0 w1 w2) = .updateRange (sint32 w1) (sint32 w2) := by
  rcases op_cases (packetOp (packetOf w0 w1 w2)) with h | h | h | h
  · exact .inl (decode_of_op_reset h)
  · exact .inr (.inl (decode_of_op_value h))
  · have hd := decode_of_op_updateByte h
    rw [packetW1_packetOf] at hd
    exact .inr (.inr (.inl hd))
  · have hd := decode_of_op_updateRange h
    rw [packetW1_packetOf, packetW2_packetOf] at hd
    exact .inr (.inr (.inr hd))

end Sys2Proof

namespace Sys2Proof.Machine

/-- The byte of an UPDATE_BYTE packet, in the packet's own bits (R39). -/
theorem dataByte_packetW1 (p : Packet) : dataByte (packetW1 p) = p.extractLsb' 32 8 :=
  extractLsb'_of_extractLsb' p (by decide)

/-- The byte of a data word is the word masked by `BYTE_MASK` (R39). -/
theorem setWidth_dataByte (data : Word) : (dataByte data).setWidth 32 = data &&& 0x000000FF#32 :=
  setWidth_lowBits data

theorem dataByte_congr {data data' : Word} (h : data &&& 0x000000FF#32 = data' &&& 0x000000FF#32) :
    dataByte data = dataByte data' :=
  (and_mask_eq_iff (by decide)).mp (h.trans (setWidth_dataByte data').symm)

/-- UPDATE_BYTE depends on its data word's byte alone (R40, R47). -/
theorem exec_updateByte_congr {data data' : Word} (s : State) (h : dataByte data = dataByte data') :
    exec (.updateByte data) s = exec (.updateByte data') s := by
  simp only [exec_eq, accAfter, fedBytes, responseOf, h]

/-- Packets that agree on `op` and on the bits their command uses have the same effect (R40). -/
theorem exec_decode_congr {p q : Packet} (s : State) (hop : packetOp p = packetOp q)
    (hbyte : packetOp p = 0b10#2 → p.extractLsb' 32 8 = q.extractLsb' 32 8)
    (hrange : packetOp p = 0b11#2 → p.extractLsb' 32 64 = q.extractLsb' 32 64) :
    exec (decode p) s = exec (decode q) s := by
  rcases op_cases (packetOp p) with h | h | h | h
  · rw [decode_of_op_reset h, decode_of_op_reset (hop ▸ h)]
  · rw [decode_of_op_value h, decode_of_op_value (hop ▸ h)]
  · rw [decode_of_op_updateByte h, decode_of_op_updateByte (hop ▸ h)]
    apply exec_updateByte_congr
    rw [dataByte_packetW1, dataByte_packetW1, hbyte h]
  · obtain ⟨h1, h2⟩ := operandWords_congr (hrange h)
    rw [decode_of_op_updateRange h, decode_of_op_updateRange (hop ▸ h), h1, h2]

end Sys2Proof.Machine
end

section
/-! SUPPORT. The response of a command, field by field (R41). -/

namespace Sys2Proof.Machine

/-- Only VALUE returns data. -/
theorem rdata_responseOf {i : Instr} (s : State) (h : i ≠ .value) : (responseOf i s).rdata = 0#32 := by
  cases i with
  | reset => rfl
  | value => exact absurd rfl h
  | updateByte data => rfl
  | updateRange offset count => rw [responseOf]; split <;> rfl

/-- Only UPDATE_RANGE can have a status other than OK. -/
theorem updateRange_of_status_ne_ok {i : Instr} {s : State} (h : (responseOf i s).status ≠ .ok) :
    ∃ offset count, i = .updateRange offset count := by
  cases i with
  | reset => exact absurd rfl h
  | value => exact absurd rfl h
  | updateByte data => exact absurd rfl h
  | updateRange offset count => exact ⟨offset, count, rfl⟩

/-- No status has the code 0b11. -/
theorem code_ne_three (st : Status) : st.code ≠ 0b11#2 := by cases st <;> decide

end Sys2Proof.Machine
end

section
/-! THEOREM. The statements about the encoding and the response format (30_encoding.md). -/

namespace Sys2Proof.Machine

/-- Settles O1: the decoded command tells `op`, and the table's mask picks out `op`. -/
theorem selectorChoosesCommand : Obligations.SelectorChoosesCommand := by
  unfold Obligations.SelectorChoosesCommand
  intro p
  exact ⟨packetOp_eq_reset_iff, packetOp_eq_value_iff, packetOp_eq_updateByte_iff, packetOp_eq_updateRange_iff,
    (and_opMask_eq_iff 0b00#2).trans packetOp_eq_reset_iff,
    (and_opMask_eq_iff 0b01#2).trans packetOp_eq_value_iff,
    (and_opMask_eq_iff 0b10#2).trans packetOp_eq_updateByte_iff,
    (and_opMask_eq_iff 0b11#2).trans packetOp_eq_updateRange_iff⟩

/-- Settles O2: the operands are the packet's words W1 and W2, and a data word counts through its low byte. -/
theorem operandsAreAssembled : Obligations.OperandsAreAssembled := by
  unfold Obligations.OperandsAreAssembled
  exact ⟨fun p h => ⟨decode_of_op_updateByte h, dataByte_packetW1 p⟩, fun _ => decode_of_op_updateRange,
    sint32_range, setWidth_dataByte, fun _ _ s h => exec_updateByte_congr s (dataByte_congr h)⟩

/-- Settles O3: a step runs the decoded command, whose effect depends on `op` and the used bits alone. -/
theorem ignoredBitsHaveNoEffect : Obligations.IgnoredBitsHaveNoEffect := by
  unfold Obligations.IgnoredBitsHaveNoEffect
  refine ⟨fun w0 w1 w2 => ⟨rfl, decode_packetOf w0 w1 w2⟩, fun s p q buf rest hop hbyte hrange => ?_⟩
  rw [step_of_cons rfl, step_of_cons rfl]
  exact exec_decode_congr _ hop hbyte hrange

/-- Settles O30: every command answers `responseOf`. -/
theorem responseFormat : Obligations.ResponseFormat := by
  unfold Obligations.ResponseFormat
  refine ⟨fun i s => ⟨_, responseOf i s, exec_eq i s, rfl, ?_, rdata_responseOf s, updateRange_of_status_ne_ok,
    code_ne_three _, rfl⟩, rfl, rfl, rfl, rfl, ofCode_code⟩
  rintro rfl
  rfl

end Sys2Proof.Machine
end

section
/-! SUPPORT. The updater's two sums with R46's modulus written out, and what each `mod` comes to on a reduced word. -/

namespace Sys2Proof.Machine

variable {acc : Word} {b : Byte}

theorem toNat_lowHalf_upd (acc : Word) (b : Byte) :
    (lowHalf (upd acc b)).toNat = ((lowHalf acc).toNat + b.toNat) % 65521 := lowHalf_upd acc b

/-- The second sum uses the new S1 (R46). -/
theorem toNat_highHalf_upd (acc : Word) (b : Byte) :
    (highHalf (upd acc b)).toNat = ((highHalf acc).toNat + (lowHalf (upd acc b)).toNat) % 65521 := by
  rw [lowHalf_upd]
  exact highHalf_upd acc b

theorem Reduced.lowHalf_add_le (h : Reduced acc) (b : Byte) : (lowHalf acc).toNat + b.toNat ≤ 65775 := by
  obtain ⟨hlow, -⟩ := h
  simp only [Config.modulus] at hlow
  omega

theorem Reduced.highHalf_add_le (h : Reduced acc) (b : Byte) :
    (highHalf acc).toNat + (lowHalf (upd acc b)).toNat ≤ 131040 := by
  obtain ⟨-, hhigh⟩ := h
  obtain ⟨hlow', -⟩ := reduced_upd acc b
  simp only [Config.modulus] at hhigh hlow'
  omega

theorem toNat_lowHalf_upd_of_lt (hb : (lowHalf acc).toNat + b.toNat < 65521) :
    (lowHalf (upd acc b)).toNat = (lowHalf acc).toNat + b.toNat :=
  (toNat_lowHalf_upd acc b).trans (Nat.mod_eq_of_lt hb)

theorem Reduced.toNat_lowHalf_upd_of_le (h : Reduced acc) (hb : 65521 ≤ (lowHalf acc).toNat + b.toNat) :
    (lowHalf (upd acc b)).toNat = (lowHalf acc).toNat + b.toNat - 65521 := by
  have := h.lowHalf_add_le b
  rw [toNat_lowHalf_upd]
  omega

theorem toNat_highHalf_upd_of_lt (hb : (highHalf acc).toNat + (lowHalf (upd acc b)).toNat < 65521) :
    (highHalf (upd acc b)).toNat = (highHalf acc).toNat + (lowHalf (upd acc b)).toNat :=
  (toNat_highHalf_upd acc b).trans (Nat.mod_eq_of_lt hb)

theorem Reduced.toNat_highHalf_upd_of_le (h : Reduced acc)
    (hb : 65521 ≤ (highHalf acc).toNat + (lowHalf (upd acc b)).toNat) :
    (highHalf (upd acc b)).toNat = (highHalf acc).toNat + (lowHalf (upd acc b)).toNat - 65521 := by
  have := h.highHalf_add_le b
  rw [toNat_highHalf_upd]
  omega

/-- A byte of 0 leaves S1 (R47). -/
theorem Reduced.lowHalf_upd_zero (h : Reduced acc) : lowHalf (upd acc 0#8) = lowHalf acc :=
  BitVec.eq_of_toNat_eq (toNat_lowHalf_upd_of_lt h.1)

/-- S1 becomes 0 by a wrap to exactly 65521, or stays 0 (R47). -/
theorem Reduced.lowHalf_upd_eq_zero_iff (h : Reduced acc) :
    lowHalf (upd acc b) = 0#16 ↔
      (lowHalf acc).toNat + b.toNat = 65521 ∨ (lowHalf acc = 0#16 ∧ b = 0#8) := by
  simp only [← BitVec.toNat_inj, BitVec.toNat_ofNat]
  rcases Nat.lt_or_ge ((lowHalf acc).toNat + b.toNat) 65521 with hlt | hge
  · rw [toNat_lowHalf_upd_of_lt hlt]
    omega
  · rw [h.toNat_lowHalf_upd_of_le hge]
    omega

/-- Where S1 becomes 0, S2 stays (R47). -/
theorem Reduced.highHalf_upd_of_lowHalf_eq_zero (h : Reduced acc) (h0 : lowHalf (upd acc b) = 0#16) :
    highHalf (upd acc b) = highHalf acc := by
  obtain ⟨-, hhigh⟩ := h
  apply BitVec.eq_of_toNat_eq
  rw [toNat_highHalf_upd, h0]
  exact Nat.mod_eq_of_lt hhigh

/-- The largest S1 and the largest byte (R47). -/
theorem lowHalf_upd_of_max (h1 : lowHalf acc = 65520#16) (hb : b = 255#8) : lowHalf (upd acc b) = 254#16 := by
  apply BitVec.eq_of_toNat_eq
  rw [toNat_lowHalf_upd, h1, hb]
  rfl

/-- The largest S2 and a new S1 of 1 (R47). -/
theorem highHalf_upd_of_max (h2 : highHalf acc = 65520#16) (h1 : lowHalf (upd acc b) = 1#16) :
    highHalf (upd acc b) = 0#16 := by
  apply BitVec.eq_of_toNat_eq
  rw [toNat_highHalf_upd, h2, h1]
  rfl

end Sys2Proof.Machine
end

section
/-! SUPPORT. The one state a command can lead to, and the one state a step can lead to. -/

namespace Sys2Proof.Machine

/-- Everything a command can do when it answers a next state. -/
theorem exec_next {i : Instr} {s t : State} (h : exec i s = .next t) :
    t = { s with acc := accAfter i s, responses := s.responses ++ [responseOf i s] } := by
  rw [exec_eq] at h
  exact (Host.Outcome.next.inj h).symm

/-- A step with a command issued, field by field. -/
theorem step_eq {s : State} {c : Command} {rest : List Command} (h : s.stream = c :: rest) :
    step s = .next
      { acc := accAfter (decode c.packet) { s with buffer := c.buffer, stream := rest }
        buffer := c.buffer
        stream := rest
        responses := s.responses ++
          [responseOf (decode c.packet) { s with buffer := c.buffer, stream := rest }] } :=
  (step_of_cons h).trans (exec_eq _ _)

/-- The 64-bit view of the data has its unsigned value (R45). -/
@[simp] theorem toNat_view64 (r : Response) : r.view64.toNat = r.rdata.toNat :=
  BitVec.toNat_setWidth_of_le (by decide)

end Sys2Proof.Machine
end

section
/-! THEOREM. The statements about the commands that never fail (40_accumulator_ops.md). -/

namespace Sys2Proof.Machine

/-- Settles O14: the two sums of R46, and on a reduced word their bounds and what each `mod` comes to. -/
theorem updaterFormula : Obligations.UpdaterFormula := by
  unfold Obligations.UpdaterFormula
  intro acc b
  refine ⟨toNat_lowHalf_upd acc b, ?_, ?_, fun h => ?_⟩
  · rw [toNat_highHalf_upd, toNat_lowHalf_upd]
  · rw [← pack_eq_shiftLeft_or, pack_halves]
  · exact ⟨reduced_upd acc b, h.lowHalf_add_le b, h.highHalf_add_le b, toNat_lowHalf_upd_of_lt,
      h.toNat_lowHalf_upd_of_le, toNat_highHalf_upd_of_lt, h.toNat_highHalf_upd_of_le⟩

/-- Settles O15: UPDATE_BYTE applies the updater, whose wraps are those of the rule. -/
theorem updateByteCommand : Obligations.UpdateByteCommand := by
  unfold Obligations.UpdateByteCommand
  refine ⟨fun data s => exec_eq (.updateByte data) s, fun s c rest hs hop => ?_, by decide, fun s h => ?_,
    ⟨_, exec_eq _ _, by decide⟩, fun data s h => ?_, ⟨_, exec_eq _ _, by decide⟩⟩
  · rw [step_eq hs, decode_of_op_updateByte hop, ← dataByte_packetW1]
    rfl
  · refine ⟨_, exec_eq _ s, h.lowHalf_upd_zero, (toNat_highHalf_upd s.acc 0#8).trans ?_⟩
    rw [h.lowHalf_upd_zero]
    rfl
  · have hzero := h.lowHalf_upd_eq_zero_iff (b := dataByte data)
    refine ⟨_, exec_eq _ s, fun hwrap => ?_, hzero.mp, lowHalf_upd_of_max, h.toNat_highHalf_upd_of_le,
      highHalf_upd_of_max⟩
    have h0 := hzero.mpr (.inl hwrap)
    exact ⟨h0, h.highHalf_upd_of_lowHalf_eq_zero h0⟩

/-- Settles O12: RESET leaves `Config.accInit`, from whatever state. -/
theorem resetCommand : Obligations.ResetCommand := by
  unfold Obligations.ResetCommand
  refine ⟨exec_eq .reset, fun s c rest hs hop => ?_, fun s t u ht hu => ?_, ⟨_, exec_eq _ _, rfl⟩,
    ⟨_, exec_eq _ _, rfl, rfl⟩⟩
  · rw [step_eq hs, decode_of_op_reset hop]
    rfl
  · rw [exec_next hu, exec_next ht]
    rfl

/-- Settles O13: VALUE answers the accumulator it leaves. -/
theorem valueCommand : Obligations.ValueCommand := by
  unfold Obligations.ValueCommand
  refine ⟨exec_eq .value, fun s c rest hs hop => ?_, ⟨_, exec_eq _ _, rfl⟩, fun s t u ht hu => ?_, toNat_view64,
    toNat_view64 _, ⟨_, _, _, exec_eq _ _, exec_eq _ _, exec_eq _ _, by decide⟩⟩
  · rw [step_eq hs, decode_of_op_value hop]
    rfl
  · refine ⟨responseOf .value s, ?_, ?_⟩
    · rw [exec_next ht]
    · rw [exec_next hu, exec_next ht]
      rfl

end Sys2Proof.Machine
end

section
/-! SUPPORT. UPDATE_RANGE in the three cases that R50 keeps apart, each with the whole state it leads to; the buffer
of a byte sequence; and what an accepted range may read. -/

namespace Sys2Proof.Machine

variable {s : State} {offset count : Int}

/-- UPDATE_RANGE accepted: its bytes are folded in one at a time (R49). -/
theorem exec_updateRange_of_accepted (h : Accepted s.buffer offset count) :
    exec (.updateRange offset count) s =
      .next { s with acc := foldUpd s.acc (s.buffer.slice offset.toNat count.toNat)
                     responses := s.responses ++ [{ status := .ok, rdata := 0#32 }] } :=
  execUpdateRange_of_accepted h

/-- UPDATE_RANGE over an absent buffer, whatever its operands (R50, R61). -/
theorem exec_updateRange_of_absent (h : s.buffer.present = false) :
    exec (.updateRange offset count) s =
      .next { s with responses := s.responses ++ [{ status := .invalidArgument, rdata := 0#32 }] } :=
  execUpdateRange_rejected (validate_absent offset count h)

/-- UPDATE_RANGE over a buffer that is there, with operands that fail a check (R50). -/
theorem exec_updateRange_of_not_accepted (hp : s.buffer.present = true) (h : ¬ Accepted s.buffer offset count) :
    exec (.updateRange offset count) s =
      .next { s with responses := s.responses ++ [{ status := .outOfRange, rdata := 0#32 }] } :=
  execUpdateRange_rejected (validate_outOfRange hp h)

/-- One check of R50 that fails is enough to reject a range. -/
theorem not_accepted_of_check_fails {buf : Buffer}
    (h : offset < 0 ∨ count < 0 ∨ offset ≥ buf.len.val ∨ offset + count > buf.len.val) :
    ¬ Accepted buf offset count := by
  rintro ⟨-, hoffset, hcount, hstart, hend⟩
  omega

/-- UPDATE_RANGE past the end of its buffer, by the exact sum (R57). -/
theorem exec_updateRange_of_sum_gt (hp : s.buffer.present = true)
    (hsum : (s.buffer.len.val : Int) < offset + count) :
    exec (.updateRange offset count) s =
      .next { s with responses := s.responses ++ [{ status := .outOfRange, rdata := 0#32 }] } :=
  exec_updateRange_of_not_accepted hp (not_accepted_of_check_fails (.inr (.inr (.inr hsum))))

/-- The buffer of a byte sequence that can be presented (R43). -/
theorem buffer_named {bs : List Byte} (h : bs.length ≤ Config.bufLenMax) :
    (BufOperand.named bs).buffer = some (Buffer.ofBytes bs h) := dif_pos h

/-- Every index of an accepted range is in the buffer space (R57). -/
theorem memRead_isSome_of_accepted {buf : Buffer} {k : Nat} (h : Accepted buf offset count)
    (hk : (k : Int) < offset + count) : (buf.memRead k).isSome = true := by
  obtain ⟨hp, -, -, -, hend⟩ := h
  rw [memRead_of_lt hp (by omega), Option.isSome_some]

end Sys2Proof.Machine
end

section
/-! THEOREM. The statements about which ranges UPDATE_RANGE accepts and what it then does (41_range_engine.md). -/

namespace Sys2Proof.Machine

/-- Settles O17: the three cases of UPDATE_RANGE, its operands in the packet, and "Wikipedia" by running the fold. -/
theorem updateRangeCommand : Obligations.UpdateRangeCommand := by
  unfold Obligations.UpdateRangeCommand
  refine ⟨fun _ _ _ => exec_updateRange_of_accepted, fun _ _ _ => exec_updateRange_of_absent,
    fun _ _ _ => exec_updateRange_of_not_accepted, fun s c rest hs hop => ?_,
    ⟨_, _, buffer_named (by decide), exec_updateRange_of_accepted (by decide), by decide, rfl⟩⟩
  rw [step_of_cons hs, decode_of_op_updateRange hop]
  rfl

/-- Settles O18: an absent buffer, a range accepted, or a range that fails a check, and in each case its one status. -/
theorem validationOrder : Obligations.ValidationOrder := by
  unfold Obligations.ValidationOrder
  intro offset count s
  cases hp : s.buffer.present with
  | false =>
    exact ⟨_, .invalidArgument, exec_updateRange_of_absent hp, rfl, fun _ => rfl, nofun, nofun, nofun, nofun, nofun,
      fun _ => rfl⟩
  | true =>
    by_cases h : Accepted s.buffer offset count
    · exact ⟨_, .ok, exec_updateRange_of_accepted h, rfl, nofun,
        fun _ hc => absurd h (not_accepted_of_check_fails (.inl hc)),
        fun _ hc => absurd h (not_accepted_of_check_fails (.inr (.inl hc))),
        fun _ hc => absurd h (not_accepted_of_check_fails (.inr (.inr (.inl hc)))),
        fun _ hc => absurd h (not_accepted_of_check_fails (.inr (.inr (.inr hc)))),
        fun _ _ _ _ _ => rfl, fun hne => absurd rfl hne⟩
    · exact ⟨_, .outOfRange, exec_updateRange_of_not_accepted hp h, rfl, nofun, fun _ _ => rfl, fun _ _ => rfl,
        fun _ _ => rfl, fun _ _ => rfl,
        fun _ hoffset hcount hstart hend => absurd ⟨hp, hoffset, hcount, hstart, hend⟩ h, fun _ => rfl⟩

/-- Settles O24: a sum past BUF_LEN fails a check, over unbounded integers, and an accepted range ends in the buffer. -/
theorem boundSumIsExact : Obligations.BoundSumIsExact := by
  unfold Obligations.BoundSumIsExact
  refine ⟨fun _ _ _ hp _ _ hsum => exec_updateRange_of_sum_gt hp hsum,
    ⟨by decide, fun _ hp hlen => exec_updateRange_of_sum_gt hp (by omega)⟩, fun w1 w2 _ _ => ?_,
    fun _ _ _ _ h _ hk => memRead_isSome_of_accepted h hk⟩
  obtain ⟨-, h1⟩ := sint32_range w1
  obtain ⟨-, h2⟩ := sint32_range w2
  omega

end Sys2Proof.Machine
end

section
/-! SUPPORT. The cause of each error (R50, R60), said of validation first and then of a command's response. -/

namespace Sys2Proof.Machine

variable {buf : Buffer} {offset count : Int}

/-- Over a buffer that is there, a range is rejected exactly when one of the four checks on it fails (R50). -/
theorem not_accepted_iff_check_fails (hp : buf.present = true) :
    ¬ Accepted buf offset count ↔
      (offset < 0 ∨ count < 0 ∨ offset ≥ buf.len.val ∨ offset + count > buf.len.val) := by
  refine ⟨fun h => ?_, not_accepted_of_check_fails⟩
  simp only [Accepted, hp, true_and] at h
  omega

/-- InvalidArgument has one cause: the buffer is absent. -/
theorem validate_eq_invalidArgument_iff :
    validate buf offset count = some .invalidArgument ↔ buf.present = false := by
  refine ⟨fun hv => ?_, validate_absent offset count⟩
  by_contra hp
  rw [Bool.not_eq_false] at hp
  by_cases h : Accepted buf offset count
  · cases (validate_eq_none.mpr h).symm.trans hv
  · cases (validate_outOfRange hp h).symm.trans hv

/-- OutOfRange has one cause: the buffer is there, and the range is not accepted. -/
theorem validate_eq_outOfRange_iff :
    validate buf offset count = some .outOfRange ↔ buf.present = true ∧ ¬ Accepted buf offset count := by
  refine ⟨fun hv => ⟨?_, fun h => ?_⟩, fun ⟨hp, h⟩ => validate_outOfRange hp h⟩
  · by_contra hp
    rw [Bool.not_eq_true] at hp
    cases (validate_absent offset count hp).symm.trans hv
  · cases (validate_eq_none.mpr h).symm.trans hv

/-- The two errors have different statuses. -/
theorem error_status_inj {e e' : Error} : e.status = e'.status ↔ e = e' := by
  cases e <;> cases e' <;> decide

/-- A command reports an error exactly when it is UPDATE_RANGE and validation raises that error. -/
theorem status_responseOf_eq_error_iff {i : Instr} {s : State} {e : Error} :
    (responseOf i s).status = e.status ↔
      ∃ offset count, i = .updateRange offset count ∧ validate s.buffer offset count = some e := by
  constructor
  · intro h
    obtain ⟨offset, count, rfl⟩ := updateRange_of_status_ne_ok (h ▸ error_status_ne_ok e)
    refine ⟨offset, count, rfl, ?_⟩
    cases hv : validate s.buffer offset count with
    | none =>
      simp only [responseOf, hv] at h
      exact absurd h.symm (error_status_ne_ok e)
    | some e' =>
      simp only [responseOf, hv] at h
      rw [error_status_inj.mp h]
  · rintro ⟨offset, count, rfl, hv⟩
    simp only [responseOf, hv]

/-- A response that reports an error has no data. -/
theorem rdata_responseOf_of_status_ne_ok {i : Instr} {s : State} (h : (responseOf i s).status ≠ .ok) :
    (responseOf i s).rdata = 0#32 := by
  obtain ⟨offset, count, rfl⟩ := updateRange_of_status_ne_ok h
  exact rdata_responseOf s nofun

/-- Who answers INVALID_ARGUMENT, and why (R60). -/
theorem status_responseOf_eq_invalidArgument_iff {i : Instr} {s : State} :
    (responseOf i s).status = .invalidArgument ↔
      ∃ offset count, i = .updateRange offset count ∧ s.buffer.present = false :=
  (status_responseOf_eq_error_iff (e := .invalidArgument)).trans <|
    exists_congr fun _ => exists_congr fun _ => and_congr_right fun _ => validate_eq_invalidArgument_iff

/-- Who answers OUT_OF_RANGE, and why (R60). -/
theorem status_responseOf_eq_outOfRange_iff {i : Instr} {s : State} :
    (responseOf i s).status = .outOfRange ↔ ∃ offset count, i = .updateRange offset count ∧ s.buffer.present = true ∧
      (offset < 0 ∨ count < 0 ∨ offset ≥ s.buffer.len.val ∨ offset + count > s.buffer.len.val) :=
  (status_responseOf_eq_error_iff (e := .outOfRange)).trans <|
    exists_congr fun _ => exists_congr fun _ => and_congr_right fun _ =>
      validate_eq_outOfRange_iff.trans (and_congr_right not_accepted_iff_check_fails)

end Sys2Proof.Machine
end

section
/-! THEOREM. The statement about which command raises which error (60_exceptions.md). -/

namespace Sys2Proof.Machine

/-- Settles O27: every command answers `responseOf`, whose status is an error exactly when validation raises it. -/
theorem onlyRangeFails : Obligations.OnlyRangeFails := by
  unfold Obligations.OnlyRangeFails
  exact ⟨fun i s => ⟨_, (responseOf i s).status, (responseOf i s).rdata, exec_eq i s, rfl,
    status_responseOf_eq_invalidArgument_iff, status_responseOf_eq_outOfRange_iff,
    rdata_responseOf_of_status_ne_ok, code_ne_three _⟩, rfl, rfl⟩

end Sys2Proof.Machine
end

section
/-! SUPPORT. The encoder and the decoder: a command comes back from its packet, and a packet comes back masked. -/

namespace Sys2Proof

/-- A command that has a packet comes back from its packet (R37 to R39). -/
theorem decode_encode {i : Instr} (h : i.WellFormed) : decode (encode i) = i := by
  cases i with
  | reset => exact Laws.RoundTrip.reset h
  | value => exact Laws.RoundTrip.value h
  | updateByte data => exact Laws.RoundTrip.updateByte data h
  | updateRange offset count => exact Laws.RoundTrip.updateRange offset count h

/-- Two words have their values as operands of a packet (R39). -/
theorem wellFormed_updateRange_sint32 (w1 w2 : Word) : (Instr.updateRange (sint32 w1) (sint32 w2)).WellFormed := by
  simp [Instr.WellFormed, Instr.wellFormed, sint32_range]

/-- What the decoder reads has a packet (R39). -/
theorem wellFormed_decode (p : Packet) : (decode p).WellFormed := by
  rcases op_cases (packetOp p) with h | h | h | h
  · rw [decode_of_op_reset h]; rfl
  · rw [decode_of_op_value h]; rfl
  · rw [decode_of_op_updateByte h]; rfl
  · rw [decode_of_op_updateRange h]
    exact wellFormed_updateRange_sint32 _ _

/-- A packet masked word by word. -/
theorem packet_and (p : Packet) (m0 m1 m2 : Word) :
    p &&& packetOf m0 m1 m2 = packetOf (packetW0 p &&& m0) (packetW1 p &&& m1) (packetW2 p &&& m2) := by
  conv_lhs => rw [← packetOf_words p]
  exact BitVec.and_append.trans (congrArg (· ++ (packetW0 p &&& m0)) BitVec.and_append)

/-- `op` is what a mask of 0x3 leaves of W0 (R38). -/
theorem packetW0_and_opMask {p : Packet} {x : BitVec 2} (h : packetOp p = x) :
    packetW0 p &&& 0x00000003#32 = x.setWidth 32 := (and_mask_eq_iff (by decide)).mpr h

/-- Encoding a decoded packet masks it word by word: `op` stays, and W1 and W2 stay where they are operands. -/
theorem encode_decode (p : Packet) :
    (packetOp p = 0b00#2 → encode (decode p) = p &&& packetOf 0x00000003#32 0#32 0#32) ∧
    (packetOp p = 0b01#2 → encode (decode p) = p &&& packetOf 0x00000003#32 0#32 0#32) ∧
    (packetOp p = 0b10#2 → encode (decode p) = p &&& packetOf 0x00000003#32 0xFFFFFFFF#32 0#32) ∧
    (packetOp p = 0b11#2 → encode (decode p) = p &&& packetOf 0x00000003#32 0xFFFFFFFF#32 0xFFFFFFFF#32) := by
  have hones (w : Word) : w &&& 0xFFFFFFFF#32 = w := BitVec.and_allOnes
  have hzero (w : Word) : w &&& 0#32 = 0#32 := BitVec.and_zero
  refine ⟨fun h => ?_, fun h => ?_, fun h => ?_, fun h => ?_⟩ <;>
    rw [packet_and, packetW0_and_opMask h]
  · rw [decode_of_op_reset h, hzero, hzero]; rfl
  · rw [decode_of_op_value h, hzero, hzero]; rfl
  · rw [decode_of_op_updateByte h, hones, hzero]; rfl
  · rw [decode_of_op_updateRange h, hones, hones, encode, word32_sint32, word32_sint32]; rfl

/-- A table row that decodes has the three words of its packet, and decodes as that packet does. -/
theorem decode_tablePacket {nbits w : Nat} {i : Instr} (h : decodeTableWord nbits w = some i) :
    decode (tablePacket nbits w) = i := by
  simp only [decodeTableWord, tableWords] at h
  cases hn : (nbits - 96 + 31) / 32 with
  | zero =>
    rw [hn] at h
    simpa [decodeWords, packetOf_words] using h
  | succ n =>
    rw [hn] at h
    simp [decodeWords, List.replicate_succ] at h

end Sys2Proof
end

section
/-! SUPPORT. The assembler on the lines it accepts (R43): literals, buffers, and the command of an assembled line. -/

namespace Sys2Proof.Machine

/-- A decimal literal in range is the pattern of its value (R43). -/
theorem word_dec {v : Int} (h : IsSint32 v) : (Literal.dec v).word = some (word32 v) := if_pos h

theorem word_dec_eq_none {v : Int} (h : ¬ IsSint32 v) : (Literal.dec v).word = none := if_neg h

/-- A hex literal below 2^32 is its own pattern (R43). -/
theorem word_hex {n : Nat} (h : n < 4294967296) : (Literal.hex n).word = some (BitVec.ofNat 32 n) := if_pos h

theorem word_hex_eq_none {n : Nat} (h : ¬ n < 4294967296) : (Literal.hex n).word = none := if_neg h

/-- A byte sequence that is too long presents no buffer (R26). -/
theorem buffer_named_eq_none {bs : List Byte} (h : ¬ bs.length ≤ Config.bufLenMax) :
    (BufOperand.named bs).buffer = none := dif_neg h

/-- MemRead of a buffer made from bytes, at every index. -/
theorem memRead_ofBytes_eq_getElem? (bs : List Byte) (h : bs.length ≤ Config.bufLenMax) (k : Nat) :
    (Buffer.ofBytes bs h).memRead k = bs[k]? := by
  by_cases hk : k < bs.length
  · rw [memRead_ofBytes bs h k hk, List.getElem?_eq_getElem hk]
  · rw [List.getElem?_eq_none (by omega)]
    exact if_neg fun hread => hk hread.2

/-- The packet of an assembled command decodes to the command. -/
theorem decode_packet_of {i : Instr} (buf : Buffer) (h : i.WellFormed) : decode (Command.of i buf).packet = i :=
  decode_encode h

theorem assemble_updateByte {data : Literal} {w : Word} (h : data.word = some w) :
    assemble (.updateByte data) = some (Command.of (.updateByte w) Buffer.absent) := by
  simp only [assemble, h]

theorem assemble_updateRange {offset count : Literal} {b : BufOperand} {w1 w2 : Word} {buf : Buffer}
    (h1 : offset.word = some w1) (h2 : count.word = some w2) (hb : b.buffer = some buf) :
    assemble (.updateRange offset count b) = some (Command.of (.updateRange (sint32 w1) (sint32 w2)) buf) := by
  simp only [assemble, h1, h2, hb]

theorem assemble_updateByte_eq_none {data : Literal} (h : data.word = none) :
    assemble (.updateByte data) = none := by
  simp only [assemble, h]

/-- One refused operand refuses the line. -/
theorem assemble_updateRange_eq_none {offset count : Literal} {b : BufOperand}
    (h : offset.word = none ∨ count.word = none ∨ b.buffer = none) :
    assemble (.updateRange offset count b) = none := by
  rw [assemble]
  split
  next h1 h2 hb => simp [h1, h2, hb] at h
  next => rfl

end Sys2Proof.Machine
end

section
/-! THEOREM. The statements about encoding, decoding and assembling (30_encoding.md). -/

namespace Sys2Proof.Machine

/-- Settles O4: every family of commands comes back from its packet. -/
theorem decodeUndoesEncode : Obligations.DecodeUndoesEncode := by
  unfold Obligations.DecodeUndoesEncode
  exact fun _ => decode_encode

/-- Settles O5: encoding after decoding masks the packet, and the four masks are these words. -/
theorem encodeKeepsOpAndOperandWords : Obligations.EncodeKeepsOpAndOperandWords := by
  unfold Obligations.EncodeKeepsOpAndOperandWords
  exact fun p => ⟨wellFormed_decode p, encode_decode p⟩

/-- Settles O6: by running the decoder. -/
theorem writtenOutPacketsDecode : Obligations.WrittenOutPacketsDecode := by
  unfold Obligations.WrittenOutPacketsDecode
  decide

/-- Settles O7: by the number of words. -/
theorem onlyThreeWordsArePackets : Obligations.OnlyThreeWordsArePackets := by
  unfold Obligations.OnlyThreeWordsArePackets
  intro ws
  match ws with
  | [] | [_] | [_, _] => exact ⟨fun _ => rfl, nofun, nofun⟩
  | [_, _, _] => exact ⟨fun h => absurd h (lt_irrefl 3), fun h => absurd h (lt_irrefl 3), fun _ => ⟨_, rfl⟩⟩
  | _ :: _ :: _ :: _ :: rest =>
    have hlen : 3 < rest.length + 1 + 1 + 1 + 1 := by omega
    exact ⟨fun h => absurd h (by simp), fun _ => rfl, fun h => absurd h hlen.ne'⟩

/-- Settles O8: literals, buffers and lines one by one, each accepted or refused. -/
theorem assemblerMakesTheCommand : Obligations.AssemblerMakesTheCommand := by
  unfold Obligations.AssemblerMakesTheCommand
  refine ⟨fun v => ⟨fun h => ⟨_, word_dec h, sint32_word32 h⟩, fun h => word_dec_eq_none (by omega)⟩,
    fun n h => ⟨_, word_hex h, (BitVec.toNat_ofNat n 32).trans (Nat.mod_eq_of_lt h)⟩,
    fun n h => word_hex_eq_none (by omega),
    fun bs h => ⟨_, buffer_named h, buffer_ofBytes_wf bs h, rfl, rfl, memRead_ofBytes_eq_getElem? bs h⟩,
    fun bs h => buffer_named_eq_none (by omega), ⟨_, rfl, rfl⟩, ⟨_, rfl, decode_packet_of _ rfl⟩,
    ⟨_, rfl, decode_packet_of _ rfl⟩, fun data w h => ⟨_, assemble_updateByte h, decode_packet_of _ rfl⟩,
    fun offset count b w1 w2 buf h1 h2 hb => ⟨_, assemble_updateRange h1 h2 hb,
      decode_packet_of _ (wellFormed_updateRange_sint32 w1 w2), rfl⟩,
    fun _ => assemble_updateByte_eq_none, fun _ _ _ => assemble_updateRange_eq_none, ⟨_, rfl, by decide⟩⟩

end Sys2Proof.Machine
end

section
/-! SUPPORT. The invariant of the machine: issuing a command keeps it, and so does running one. -/

namespace Sys2Proof.Machine

/-- What a command answers is `ACC` or 0, so from a reduced accumulator it is reduced. -/
theorem reduced_rdata_responseOf {s : State} (i : Instr) (h : Reduced s.acc) : Reduced (responseOf i s).rdata := by
  by_cases hi : i = .value
  · rw [hi]
    exact h
  · rw [rdata_responseOf s hi]
    decide

theorem State.Inv.issue {s : State} {c : Command} {rest : List Command} (h : s.Inv) (hs : s.stream = c :: rest) :
    State.Inv { s with buffer := c.buffer, stream := rest } where
  acc_reduced := h.acc_reduced
  port_wf := h.stream_wf c (by simp [hs])
  stream_wf := fun c' hc' => h.stream_wf c' (by simp [hs, hc'])
  rdata_reduced := h.rdata_reduced
  rdata_of_error := h.rdata_of_error

theorem State.Inv.exec {s t : State} {i : Instr} (h : s.Inv) (ht : exec i s = .next t) : t.Inv := by
  rw [exec_next ht]
  constructor
  case acc_reduced => exact reduced_accAfter i h.acc_reduced
  case port_wf => exact h.port_wf
  case stream_wf => exact h.stream_wf
  case rdata_reduced =>
    exact List.forall_mem_append.mpr ⟨h.rdata_reduced,
      List.forall_mem_singleton.mpr (reduced_rdata_responseOf i h.acc_reduced)⟩
  case rdata_of_error =>
    exact List.forall_mem_append.mpr ⟨h.rdata_of_error,
      List.forall_mem_singleton.mpr rdata_responseOf_of_status_ne_ok⟩

end Sys2Proof.Machine
end

section
/-! SUPPORT. What a command takes from the state: the accumulator, and for UPDATE_RANGE the buffer's descriptor and the
bytes of the range. -/

namespace Sys2Proof.Machine

variable {s s' : State} {i : Instr}

/-- A command's effect and response depend on the accumulator and the port alone (R14). -/
theorem accAfter_responseOf_congr (i : Instr) (hacc : s.acc = s'.acc) (hbuf : s.buffer = s'.buffer) :
    accAfter i s = accAfter i s' ∧ responseOf i s = responseOf i s' := by
  cases i <;> simp only [accAfter, responseOf, hacc, hbuf, and_self]

/-- A command other than UPDATE_RANGE has the same effect and response over any buffer (R26). -/
theorem accAfter_responseOf_of_ne_updateRange (buf : Buffer) (h : ∀ offset count, i ≠ .updateRange offset count) :
    accAfter i { s with buffer := buf } = accAfter i s ∧ responseOf i { s with buffer := buf } = responseOf i s := by
  cases i with
  | reset => exact ⟨rfl, rfl⟩
  | value => exact ⟨rfl, rfl⟩
  | updateByte data => exact ⟨rfl, rfl⟩
  | updateRange offset count => exact absurd rfl (h offset count)

/-- Validation looks at the descriptor alone (R50). -/
theorem validate_congr {buf buf' : Buffer} (offset count : Int) (hp : buf.present = buf'.present)
    (hlen : buf.len = buf'.len) : validate buf offset count = validate buf' offset count := by
  simp only [validate, hp, hlen]

/-- The response of UPDATE_RANGE depends on the descriptor alone (R50). -/
theorem responseOf_updateRange_congr (offset count : Int) (hp : s.buffer.present = s'.buffer.present)
    (hlen : s.buffer.len = s'.buffer.len) :
    responseOf (.updateRange offset count) s = responseOf (.updateRange offset count) s' := by
  simp only [responseOf, validate_congr offset count hp hlen]

/-- A rejected UPDATE_RANGE folds nothing in (R62). -/
theorem accAfter_updateRange_of_not_accepted {offset count : Int} (h : ¬ Accepted s.buffer offset count) :
    accAfter (.updateRange offset count) s = s.acc := by
  have hfed : fedBytes (.updateRange offset count) s.buffer = [] := if_neg h
  show foldUpd s.acc (fedBytes (.updateRange offset count) s.buffer) = s.acc
  rw [hfed, foldUpd_nil]

/-- Only RESET, UPDATE_BYTE and an accepted UPDATE_RANGE change the accumulator. -/
theorem instr_of_accAfter_ne (h : accAfter i s ≠ s.acc) :
    i = .reset ∨ (∃ data, i = .updateByte data) ∨
      ∃ offset count, i = .updateRange offset count ∧ Accepted s.buffer offset count := by
  cases i with
  | reset => exact .inl rfl
  | value => exact absurd rfl h
  | updateByte data => exact .inr (.inl ⟨data, rfl⟩)
  | updateRange offset count =>
    by_contra hno
    refine h (accAfter_updateRange_of_not_accepted fun hacc => hno ?_)
    exact .inr (.inr ⟨offset, count, rfl, hacc⟩)

/-- An UPDATE_RANGE that is accepted answers OK. -/
theorem status_responseOf_updateRange_of_accepted {offset count : Int} (h : Accepted s.buffer offset count) :
    (responseOf (.updateRange offset count) s).status = .ok := by
  simp only [responseOf, validate_eq_none.mpr h]

/-- A command that fails is an UPDATE_RANGE that is not accepted (R60). -/
theorem rejected_of_status_ne_ok (h : (responseOf i s).status ≠ .ok) :
    ∃ offset count, i = .updateRange offset count ∧ ¬ Accepted s.buffer offset count := by
  obtain ⟨offset, count, rfl⟩ := updateRange_of_status_ne_ok h
  exact ⟨offset, count, rfl, fun hacc => h (status_responseOf_updateRange_of_accepted hacc)⟩

/-- A command that fails leaves the accumulator (R62). -/
theorem accAfter_of_status_ne_ok (h : (responseOf i s).status ≠ .ok) : accAfter i s = s.acc := by
  obtain ⟨offset, count, rfl, hrej⟩ := rejected_of_status_ne_ok h
  exact accAfter_updateRange_of_not_accepted hrej

/-- A command that fails does the same whatever bytes the buffer holds (R62). -/
theorem accAfter_responseOf_of_status_ne_ok (bytes : Memory) (h : (responseOf i s).status ≠ .ok) :
    accAfter i { s with buffer := { s.buffer with bytes := bytes } } = accAfter i s ∧
      responseOf i { s with buffer := { s.buffer with bytes := bytes } } = responseOf i s := by
  obtain ⟨offset, count, rfl, -⟩ := rejected_of_status_ne_ok h
  have hr : responseOf (.updateRange offset count) { s with buffer := { s.buffer with bytes := bytes } } =
      responseOf (.updateRange offset count) s := responseOf_updateRange_congr offset count rfl rfl
  refine ⟨?_, hr⟩
  rw [accAfter_of_status_ne_ok h]
  exact accAfter_of_status_ne_ok (hr ▸ h)

end Sys2Proof.Machine
end

section
/-! SUPPORT. A run as a function of the accumulator and the commands alone: what each issued command leaves and answers,
and what the whole stream leaves and answers. -/

namespace Sys2Proof.Machine

/-- The block as a command finds it, with everything that no command reads left empty. -/
def State.atPort (acc : Word) (buf : Buffer) : State := { acc := acc, buffer := buf, stream := [], responses := [] }

/-- The accumulator an issued command leaves, from the one it finds. -/
def Command.accFrom (acc : Word) (c : Command) : Word := accAfter (decode c.packet) (State.atPort acc c.buffer)

/-- The response of an issued command, from the accumulator it finds. -/
def Command.responseFrom (acc : Word) (c : Command) : Response :=
  responseOf (decode c.packet) (State.atPort acc c.buffer)

/-- The responses of a command sequence, in issue order (R75). -/
def responsesFrom (acc : Word) (cs : List Command) : List Response :=
  match cs with
  | [] => []
  | c :: rest => c.responseFrom acc :: responsesFrom (c.accFrom acc) rest

variable {s : State} {c : Command} {rest : List Command}

@[simp] theorem length_responsesFrom (acc : Word) (cs : List Command) : (responsesFrom acc cs).length = cs.length := by
  induction cs generalizing acc with
  | nil => rfl
  | cons c rest ih => rw [responsesFrom, List.length_cons, List.length_cons, ih]

/-- What an issued command does, it does from `ACC` alone (R14). -/
theorem accAfter_responseOf_issued (s : State) (c : Command) (rest : List Command) :
    accAfter (decode c.packet) { s with buffer := c.buffer, stream := rest } = c.accFrom s.acc ∧
      responseOf (decode c.packet) { s with buffer := c.buffer, stream := rest } = c.responseFrom s.acc :=
  accAfter_responseOf_congr (decode c.packet) rfl rfl

/-- A step with a command issued: all that it takes from the state before is `ACC` (R14). -/
theorem step_eq_from (h : s.stream = c :: rest) :
    step s = .next { acc := c.accFrom s.acc, buffer := c.buffer, stream := rest,
                     responses := s.responses ++ [c.responseFrom s.acc] } := by
  obtain ⟨hacc, hr⟩ := accAfter_responseOf_issued s c rest
  rw [step_eq h, hacc, hr]

/-- A run of no commands. -/
theorem runStream_of_nil (h : s.stream = []) : s.runStream = .next s := by
  rw [State.runStream, h]
  rfl

/-- A run is its first step and the run from there. -/
theorem runStream_of_cons (h : s.stream = c :: rest) :
    s.runStream = State.runStream { acc := c.accFrom s.acc, buffer := c.buffer, stream := rest,
                                    responses := s.responses ++ [c.responseFrom s.acc] } := by
  rw [State.runStream, h]
  exact run_of_next rest.length (step_eq_from h)

/-- Every run goes to its end, and leaves and answers what its commands do one after the other (R75). -/
theorem runStream_next (s : State) :
    ∃ t, s.runStream = .next t ∧ t.acc = s.stream.foldl Command.accFrom s.acc ∧ t.stream = [] ∧
      t.responses = s.responses ++ responsesFrom s.acc s.stream := by
  generalize hs : s.stream = cs
  induction cs generalizing s with
  | nil => exact ⟨s, runStream_of_nil hs, rfl, hs, (List.append_nil _).symm⟩
  | cons c rest ih =>
    obtain ⟨t, hrun, hacc, hstream, hresp⟩ := ih { acc := c.accFrom s.acc, buffer := c.buffer, stream := rest,
                                                   responses := s.responses ++ [c.responseFrom s.acc] } rfl
    refine ⟨t, (runStream_of_cons hs).trans hrun, hacc, hstream, ?_⟩
    rw [hresp, List.append_assoc]
    rfl

/-- RESET starts afresh (R44, R69). -/
theorem accFrom_responseFrom_of_reset (acc : Word) (h : packetOp c.packet = 0b00#2) :
    c.accFrom acc = Config.accInit ∧ c.responseFrom acc = { status := .ok, rdata := 0#32 } := by
  rw [Command.accFrom, Command.responseFrom, decode_of_op_reset h]
  exact ⟨rfl, rfl⟩

/-- VALUE leaves the accumulator and answers it (R45). -/
theorem accFrom_responseFrom_of_value (acc : Word) (h : packetOp c.packet = 0b01#2) :
    c.accFrom acc = acc ∧ c.responseFrom acc = { status := .ok, rdata := acc } := by
  rw [Command.accFrom, Command.responseFrom, decode_of_op_value h]
  exact ⟨rfl, rfl⟩

/-- Every command but RESET folds in the bytes it feeds (R54). -/
theorem accFrom_of_ne_reset (acc : Word) (h : packetOp c.packet ≠ 0b00#2) : c.accFrom acc = foldUpd acc c.feeds := by
  rw [Command.accFrom, Command.feeds]
  cases hd : decode c.packet with
  | reset => exact absurd (packetOp_of_decode hd) h
  | value => rfl
  | updateByte data => rfl
  | updateRange offset count => rfl

/-- Commands without RESET fold in the bytes they feed, in order (R54). -/
theorem foldl_accFrom_eq_foldUpd (acc : Word) {cs : List Command} (h : ∀ c ∈ cs, packetOp c.packet ≠ 0b00#2) :
    cs.foldl Command.accFrom acc = foldUpd acc (cs.flatMap Command.feeds) := by
  induction cs generalizing acc with
  | nil => rfl
  | cons c rest ih =>
    obtain ⟨hc, hrest⟩ := List.forall_mem_cons.mp h
    rw [List.foldl_cons, List.flatMap_cons, foldUpd_append, accFrom_of_ne_reset acc hc, ih _ hrest]

/-- What an UPDATE_RANGE packet feeds: its slice when it is accepted, and otherwise nothing (R49). -/
theorem feeds_of_updateRange (h : packetOp c.packet = 0b11#2) :
    c.feeds = if Accepted c.buffer (packetW1 c.packet).toInt (packetW2 c.packet).toInt then
      c.buffer.slice (packetW1 c.packet).toInt.toNat (packetW2 c.packet).toInt.toNat else [] := by
  rw [Command.feeds, decode_of_op_updateRange h]
  rfl

end Sys2Proof.Machine
end

section
/-! THEOREM. The statements about every command, every step and every run (10_state.md, 60_exceptions.md,
70_reset_and_hazards.md). -/

namespace Sys2Proof.Machine

/-- Settles O35: an issue keeps the invariant and so does the command issued; an idle step changes nothing. -/
theorem stepKeepsTheInvariant : Obligations.StepKeepsTheInvariant := by
  unfold Obligations.StepKeepsTheInvariant
  intro s t h ht
  cases hs : s.stream with
  | nil =>
    rw [step_of_nil hs] at ht
    exact Host.Outcome.next.inj ht ▸ h
  | cons c rest =>
    rw [step_of_cons hs] at ht
    exact (h.issue hs).exec ht

/-- Settles O34: nothing is issued or answered at reset, and `ACC` is 1. -/
theorem resetMeetsTheInvariant : Obligations.ResetMeetsTheInvariant := by
  unfold Obligations.ResetMeetsTheInvariant
  exact ⟨reduced_accInit, buffer_absent_wf, nofun, nofun, nofun⟩

/-- Settles O10: the fields of `State.reset`, and a step with nothing issued. -/
theorem powerOnIsIdle : Obligations.PowerOnIsIdle := by
  unfold Obligations.PowerOnIsIdle
  exact ⟨reset_stream, reset_responses, rfl, rfl, step_of_nil reset_stream⟩

/-- Settles O38: a word that decodes is a row of three words, which are those of its packet. -/
theorem stepRunsTheDecodedCommand : Obligations.StepRunsTheDecodedCommand := by
  unfold Obligations.StepRunsTheDecodedCommand
  refine ⟨fun _ _ _ => step_of_cons, fun s nbits w i h => ?_⟩
  rw [step_of_cons rfl, decode_tablePacket h]
  rfl

/-- Settles O39: an idle step changes nothing, so by induction no run of them does. -/
theorem idleKeepsEverything : Obligations.IdleKeepsEverything := by
  unfold Obligations.IdleKeepsEverything
  intro s k hs
  induction k with
  | zero => exact run_zero s
  | succ k ih => rw [run_of_next k (step_of_nil hs), ih]

/-- Settles O31: what every command does is one equation, `exec_eq`. -/
theorem everyCommandCompletesWithinItsFrame : Obligations.EveryCommandCompletesWithinItsFrame := by
  unfold Obligations.EveryCommandCompletesWithinItsFrame
  exact fun i s => ⟨_, exec_eq i s, rfl, rfl, rfl, fun _ => rfl, rfl, instr_of_accAfter_ne⟩

/-- Settles O32: command by command. -/
theorem othersIgnoreTheBuffer : Obligations.OthersIgnoreTheBuffer := by
  unfold Obligations.OthersIgnoreTheBuffer
  intro i s t buf hi ht
  obtain ⟨hacc, hr⟩ := accAfter_responseOf_of_ne_updateRange (s := s) buf hi
  rw [exec_next ht, exec_eq, hacc, hr]

/-- Settles O28: a command that fails is a rejected UPDATE_RANGE, which looks at the descriptor alone. -/
theorem errorChangesNothing : Obligations.ErrorChangesNothing := by
  unfold Obligations.ErrorChangesNothing
  intro i s t r ht hr hne
  rw [exec_next ht] at hr ⊢
  obtain rfl : responseOf i s = r := List.singleton_inj.mp (List.append_cancel_left hr)
  refine ⟨rdata_responseOf_of_status_ne_ok hne, by rw [accAfter_of_status_ne_ok hne], fun bytes => ?_⟩
  obtain ⟨hacc, hresp⟩ := accAfter_responseOf_of_status_ne_ok bytes hne
  rw [exec_eq, hacc, hresp]

/-- Settles O33: both steps are the same function of `ACC` and the command. -/
theorem onlyTheAccumulatorPersists : Obligations.OnlyTheAccumulatorPersists := by
  unfold Obligations.OnlyTheAccumulatorPersists
  intro s s' c rest hacc hs hs'
  exact ⟨c.accFrom s.acc, c.responseFrom s.acc, step_eq_from hs, hacc ▸ step_eq_from hs'⟩

/-- Settles O37: every run goes to its end, with a response for each command. -/
theorem everyRunCompletes : Obligations.EveryRunCompletes := by
  unfold Obligations.EveryRunCompletes
  intro s
  obtain ⟨t, hrun, -, hstream, hresp⟩ := runStream_next s
  exact ⟨⟨t, hrun⟩, t, _, hrun, hstream, hresp, length_responsesFrom _ _⟩

/-- Settles O29: the failing command leaves `ACC`, and a run depends on `ACC` and its commands alone. -/
theorem failedCommandCouldBeLeftOut : Obligations.FailedCommandCouldBeLeftOut := by
  unfold Obligations.FailedCommandCouldBeLeftOut
  intro s t c rest r hs ht hr hne
  rw [step_eq_from hs] at ht
  obtain rfl := Host.Outcome.next.inj ht
  obtain rfl : c.responseFrom s.acc = r := List.singleton_inj.mp (List.append_cancel_left hr)
  have hacc : c.accFrom s.acc = s.acc := accAfter_of_status_ne_ok hne
  obtain ⟨u, hu, hacc_u, -, hresp_u⟩ := runStream_next s
  obtain ⟨u', hu', hacc_u', -, hresp_u'⟩ := runStream_next { s with stream := rest }
  rw [hs, List.foldl_cons, hacc] at hacc_u
  rw [hs, responsesFrom, hacc] at hresp_u
  exact ⟨u, u', _, hu, hu', hacc_u.trans hacc_u'.symm, hresp_u, hresp_u'⟩

/-- Settles O40: RESET leaves the `ACC` of power-on, and a run depends on `ACC` and its commands alone. -/
theorem resetStartsAfresh : Obligations.ResetStartsAfresh := by
  unfold Obligations.ResetStartsAfresh
  intro s c rest hs hop
  obtain ⟨hacc, hr⟩ := accFrom_responseFrom_of_reset s.acc hop
  obtain ⟨t, ht, hacc_t, -, hresp_t⟩ := runStream_next s
  obtain ⟨u, hu, hacc_u, -, hresp_u⟩ := runStream_next { State.reset with stream := rest }
  rw [hs, List.foldl_cons, hacc] at hacc_t
  rw [hs, responsesFrom, hacc, hr] at hresp_t
  exact ⟨t, u, _, ht, hu, hacc_t.trans hacc_u.symm, hresp_u, hresp_t⟩

/-- Settles O41: the second step answers the accumulator that the first left. -/
theorem valueSeesThePrecedingCommand : Obligations.ValueSeesThePrecedingCommand := by
  unfold Obligations.ValueSeesThePrecedingCommand
  intro s c v rest hs hop
  obtain ⟨hleft, -⟩ := accAfter_responseOf_issued s c (v :: rest)
  obtain ⟨hacc, hr⟩ := accFrom_responseFrom_of_value (c := v) (c.accFrom s.acc) hop
  have hrun := (run_of_next 1 (step_eq_from hs)).trans (run_of_next 0 (step_eq_from rfl))
  refine ⟨_, _, c.responseFrom s.acc, step_eq_from hs, hrun, hleft.symm, hacc, ?_⟩
  rw [hr, List.append_assoc]
  rfl

end Sys2Proof.Machine
end

section
/-! SUPPORT. A canonical listing is the one listing of what it reads as. -/

namespace Sys2Proof.Machine

variable {a low : Nat} {b : Byte} {m m' rest rest' : Memory}

theorem wfFrom_cons : Memory.wfFrom low ((a, b) :: rest) = true ↔
    low ≤ a ∧ b ≠ unlistedByte ∧ Memory.wfFrom (a + 1) rest = true := by
  simp only [Memory.wfFrom, Bool.and_eq_true, decide_eq_true_eq, and_assoc]

/-- A listed byte is no unlisted one, so a listing that reads the same lists something at or below its index. -/
theorem head_le_of_read_eq {a' : Nat} {b' : Byte} (hb : b ≠ unlistedByte)
    (h' : Memory.wfFrom low ((a', b') :: rest') = true)
    (hread : ∀ k, Memory.read ((a, b) :: rest) k = Memory.read ((a', b') :: rest') k) : a' ≤ a := by
  by_contra hlt
  obtain ⟨-, hb', hrest'⟩ := wfFrom_cons.mp h'
  have hbelow : Memory.read ((a', b') :: rest') a = unlistedByte :=
    read_below (wfFrom_cons.mpr ⟨le_rfl, hb', hrest'⟩) (by omega)
  exact hb (by simpa [hbelow] using hread a)

/-- Where two heads are at the same index, listings that read the same have tails that read the same. -/
theorem read_tail_eq {b' : Byte} (h : Memory.wfFrom (a + 1) rest = true) (h' : Memory.wfFrom (a + 1) rest' = true)
    (hread : ∀ k, Memory.read ((a, b) :: rest) k = Memory.read ((a, b') :: rest') k) (k : Nat) :
    rest.read k = rest'.read k := by
  by_cases hk : a = k
  · rw [read_below h (by omega), read_below h' (by omega)]
  · simpa [hk] using hread k

/-- Canonical listings that read the same are the same. -/
theorem eq_of_read_eq (h : Memory.wfFrom low m = true) (h' : Memory.wfFrom low m' = true)
    (hread : ∀ k, m.read k = m'.read k) : m = m' := by
  induction m generalizing m' low with
  | nil =>
    cases m' with
    | nil => rfl
    | cons cell' rest' =>
      obtain ⟨a', b'⟩ := cell'
      obtain ⟨-, hb', -⟩ := wfFrom_cons.mp h'
      exact absurd (by simpa using (hread a').symm) hb'
  | cons cell rest ih =>
    obtain ⟨a, b⟩ := cell
    obtain ⟨-, hb, hrest⟩ := wfFrom_cons.mp h
    cases m' with
    | nil => exact absurd (by simpa using hread a) hb
    | cons cell' rest' =>
      obtain ⟨a', b'⟩ := cell'
      obtain ⟨-, hb', hrest'⟩ := wfFrom_cons.mp h'
      obtain rfl : a = a' := le_antisymm (head_le_of_read_eq hb' h fun k => (hread k).symm)
        (head_le_of_read_eq hb h' hread)
      obtain rfl : b = b' := by simpa using hread a
      rw [ih hrest hrest' (read_tail_eq hrest hrest' hread)]

end Sys2Proof.Machine
end

section
/-! SUPPORT. Slices byte by byte, UPDATE_RANGE over two buffers with one descriptor (R27), and the whole of a buffer
made from bytes as one range (R54). -/

namespace Sys2Proof.Machine

variable {s s' : State} {buf buf' : Buffer} {offset count : Int}

/-- A slice, byte by byte. -/
theorem getElem_slice (buf : Buffer) {i n k : Nat} (hk : k < (buf.slice i n).length) :
    (buf.slice i n)[k] = buf.bytes.read (i + k) := by
  induction n generalizing i k with
  | zero => cases hk
  | succ n ih =>
    cases k with
    | zero => rfl
    | succ k =>
      rw [show i + (k + 1) = i + 1 + k by omega]
      exact ih (i := i + 1) (Nat.lt_of_succ_lt_succ hk)

/-- Over two buffers with one descriptor the same ranges are accepted (R50). -/
theorem accepted_congr (hp : buf.present = buf'.present) (hlen : buf.len = buf'.len) :
    Accepted buf offset count ↔ Accepted buf' offset count := by
  rw [Accepted, Accepted, hp, hlen]

/-- What UPDATE_RANGE leaves depends on the bytes of an accepted range alone (R27). -/
theorem accAfter_updateRange_congr (hacc : s.acc = s'.acc) (hp : s.buffer.present = s'.buffer.present)
    (hlen : s.buffer.len = s'.buffer.len)
    (hbytes : Accepted s.buffer offset count → ∀ k : Nat, offset ≤ k → k < offset + count →
      s.buffer.bytes.read k = s'.buffer.bytes.read k) :
    accAfter (.updateRange offset count) s = accAfter (.updateRange offset count) s' := by
  by_cases h : Accepted s.buffer offset count
  · obtain ⟨-, hoffset, hcount, -, -⟩ := id h
    have hslice : s.buffer.slice offset.toNat count.toNat = s'.buffer.slice offset.toNat count.toNat :=
      slice_congr fun k hk hk' => hbytes h k (by omega) (by omega)
    simp only [accAfter, fedBytes, if_pos h, if_pos ((accepted_congr hp hlen).mp h), hacc, hslice]
  · rw [accAfter_updateRange_of_not_accepted h,
      accAfter_updateRange_of_not_accepted (mt (accepted_congr hp hlen).mpr h), hacc]

/-- The whole of a buffer made from bytes is those bytes. -/
theorem slice_ofBytes (bs : List Byte) (h : bs.length ≤ Config.bufLenMax) :
    (Buffer.ofBytes bs h).slice 0 bs.length = bs := by
  refine List.ext_getElem (slice_length _ _ _) fun k hk hk' => ?_
  obtain ⟨-, -, hread⟩ := memRead_eq_some.mp (memRead_ofBytes bs h k hk')
  rw [getElem_slice, Nat.zero_add, hread]

/-- One UPDATE_RANGE over the whole of a buffer made from bytes is accepted (R54). -/
theorem accepted_ofBytes {bs : List Byte} (h : bs.length ≤ Config.bufLenMax) (hne : bs ≠ []) :
    Accepted (Buffer.ofBytes bs h) 0 bs.length := by
  have hpos := List.length_pos_of_ne_nil hne
  have hlen : (Buffer.ofBytes bs h).len.val = bs.length := rfl
  refine ⟨rfl, le_rfl, ?_, ?_, ?_⟩ <;> omega

end Sys2Proof.Machine
end

section
/-! THEOREM. The statements about UPDATE_RANGE as a whole and about buffers (20_memory.md, 40_accumulator_ops.md,
41_range_engine.md). -/

namespace Sys2Proof.Machine

/-- Settles O16: a range of offset 0 and count 1 over one byte is accepted, and its slice is that byte. -/
theorem byteIsOneByteRange : Obligations.ByteIsOneByteRange := by
  unfold Obligations.ByteIsOneByteRange
  intro data s buf hp hlen hread
  obtain ⟨-, -, hbyte⟩ := memRead_eq_some.mp hread
  have h : Accepted buf 0 1 := ⟨hp, le_rfl, zero_le_one, by omega, by omega⟩
  refine ⟨_, _, exec_eq _ s, exec_updateRange_of_accepted h, ?_, rfl⟩
  show foldUpd s.acc [buf.bytes.read 0] = foldUpd s.acc [dataByte data]
  rw [hbyte]

/-- Settles O22: the range is accepted, and its slice is empty. -/
theorem zeroCountChangesNothing : Obligations.ZeroCountChangesNothing := by
  unfold Obligations.ZeroCountChangesNothing
  intro offset s bytes hp hoffset hlen
  exact exec_updateRange_of_accepted ⟨hp, hoffset, le_rfl, hlen, by simpa using hlen.le⟩

/-- Settles O23: a start at BUF_LEN or past it fails a check. -/
theorem offsetAtEndFails : Obligations.OffsetAtEndFails := by
  unfold Obligations.OffsetAtEndFails
  refine ⟨fun count s hp => ?_, fun offset count s hp hlen => ?_, fun _ _ _ => exec_updateRange_of_absent⟩
  · exact exec_updateRange_of_not_accepted hp (not_accepted_of_check_fails (.inr (.inr (.inl le_rfl))))
  · exact exec_updateRange_of_not_accepted hp (not_accepted_of_check_fails (by omega))

/-- Settles O25: the response depends on the descriptor alone, and the fold on the bytes of an accepted range. -/
theorem rangeReadsOnlyItsBytes : Obligations.RangeReadsOnlyItsBytes := by
  unfold Obligations.RangeReadsOnlyItsBytes
  intro offset count s buf buf' hp hlen hbytes
  have hacc : accAfter (.updateRange offset count) { s with buffer := buf } =
      accAfter (.updateRange offset count) { s with buffer := buf' } :=
    accAfter_updateRange_congr rfl hp hlen hbytes
  have hr : responseOf (.updateRange offset count) { s with buffer := buf } =
      responseOf (.updateRange offset count) { s with buffer := buf' } :=
    responseOf_updateRange_congr offset count hp hlen
  exact ⟨_, _, exec_eq _ _, by rw [exec_eq, hacc, hr]⟩

/-- Settles O26: a run without RESET folds in the bytes its commands feed, and so does one UPDATE_RANGE over them. -/
theorem chunkingInvariance : Obligations.ChunkingInvariance := by
  unfold Obligations.ChunkingInvariance
  have hfold (s : State) (h : ∀ c ∈ s.stream, packetOp c.packet ≠ 0b00#2) :
      ∃ t, s.runStream = .next t ∧ t.acc = foldUpd s.acc (s.stream.flatMap Command.feeds) := by
    obtain ⟨t, hrun, hacc, -, -⟩ := runStream_next s
    exact ⟨t, hrun, hacc.trans (foldl_accFrom_eq_foldUpd s.acc h)⟩
  refine ⟨hfold, fun s whole hlen hne h hwhole => ?_, fun c h => ?_, fun c h => ?_, fun c h hacc => ?_⟩
  · obtain ⟨t, hrun, hacc⟩ := hfold s h
    refine ⟨t, _, hrun, exec_updateRange_of_accepted (accepted_ofBytes hlen hne), ?_⟩
    rw [hacc, hwhole]
    exact congrArg (foldUpd s.acc) (slice_ofBytes whole hlen).symm
  · rcases h with h | ⟨h, hrej⟩
    · rw [Command.feeds, decode_of_op_value h]
      rfl
    · exact (feeds_of_updateRange h).trans (if_neg hrej)
  · rw [Command.feeds, decode_of_op_updateByte h, ← dataByte_packetW1]
    rfl
  · exact (feeds_of_updateRange h).trans (if_pos hacc)

/-- Settles O42: head by head, both listings list the same byte at the same index. -/
theorem canonicalListingsAreUnique : Obligations.CanonicalListingsAreUnique := by
  unfold Obligations.CanonicalListingsAreUnique
  exact fun _ _ => eq_of_read_eq

end Sys2Proof.Machine
end

section
/-! SUPPORT. A run of the engine against R52's bound: where it is reached, and that a run within it is exact. -/

namespace Sys2Proof.Machine

theorem byte_eq_ones_of_le {b : Byte} (h : 255 ≤ b.toNat) : b = 0xFF#8 := by
  bv_omega

/-- The first sum reaches its bound on bytes of 0xFF alone. -/
theorem eq_ones_of_le_exactSums_fst {s1 s2 : Nat} {bs : List Byte}
    (h : s1 + 255 * bs.length ≤ (exactSums s1 s2 bs).1) : ∀ b ∈ bs, b = 0xFF#8 := by
  induction bs generalizing s1 s2 with
  | nil => exact nofun
  | cons b bs ih =>
    have hle := exactSums_fst_le (s1 + b.toNat) (s2 + (s1 + b.toNat)) bs
    rw [exactSums_cons, List.length_cons] at h
    have hb : 255 ≤ b.toNat := by linarith
    exact List.forall_mem_cons.mpr ⟨byte_eq_ones_of_le hb,
      ih (s1 := s1 + b.toNat) (s2 := s2 + (s1 + b.toNat)) (by omega)⟩

/-- On bytes of 0xFF both sums are at their bounds; the second doubled, as in its bound. -/
theorem exactSums_of_ones (s1 s2 : Nat) {bs : List Byte} (h : ∀ b ∈ bs, b = 0xFF#8) :
    (exactSums s1 s2 bs).1 = s1 + 255 * bs.length ∧
      2 * (exactSums s1 s2 bs).2 = 2 * (s2 + s1 * bs.length) + 255 * (bs.length * (bs.length + 1)) := by
  induction bs generalizing s1 s2 with
  | nil => simp
  | cons b bs ih =>
    obtain ⟨rfl, hbs⟩ := List.forall_mem_cons.mp h
    obtain ⟨h1, h2⟩ := ih (s1 + (0xFF#8 : Byte).toNat) (s2 + (s1 + (0xFF#8 : Byte).toNat)) hbs
    have hff : (0xFF#8 : Byte).toNat = 255 := rfl
    rw [hff] at h1 h2
    rw [exactSums_cons, List.length_cons, hff]
    constructor
    · omega
    · linarith

/-- R58's condition holds of this hardware's pair from reduced sums (R52). -/
theorem neverWraps_reduced : NeverWraps 3800 32 65520 := ⟨by decide, by decide, by decide⟩

variable {buf : Buffer} {k i : Nat} {r r' : Sums 32}

/-- A run of this hardware's engine from reduced sums wraps nowhere (R52). -/
theorem sumRun_eq_exactSums (h1 : r.rs1.toNat ≤ 65520) (h2 : r.rs2.toNat ≤ 65520) (hk : k ≤ 3800)
    (hrun : sumRun buf k i r = some r') :
    (r'.rs1.toNat, r'.rs2.toNat) = exactSums r.rs1.toNat r.rs2.toNat (buf.slice i k) := by
  obtain ⟨-, rfl⟩ := sumRun_eq_some hrun
  obtain ⟨hlt1, hlt2⟩ := neverWraps_reduced.exactSums_lt (bs := buf.slice i k) h1 h2 (by rwa [slice_length])
  exact foldl_addByte_toNat r (buf.slice i k) hlt1 hlt2

/-- The two sums of a slice of `k` bytes, bounded by `k` (R52). -/
theorem exactSums_slice_le (buf : Buffer) (i k : Nat) {s1 s2 : Nat} (h1 : s1 ≤ 65520) (h2 : s2 ≤ 65520) :
    (exactSums s1 s2 (buf.slice i k)).1 ≤ 65520 + 255 * k ∧
      (exactSums s1 s2 (buf.slice i k)).2 ≤ 65520 + 65520 * k + 255 * k * (k + 1) / 2 := by
  have hfst := exactSums_fst_le s1 s2 (buf.slice i k)
  have hsnd := two_mul_exactSums_snd_le s1 s2 (buf.slice i k)
  have hlin : s1 * k ≤ 65520 * k := Nat.mul_le_mul_right k h1
  rw [slice_length] at hfst hsnd
  rw [Nat.mul_assoc 255]
  constructor <;> omega

/-- R52's second bound is largest at the run's full length. -/
theorem sumBound_le {k : Nat} (h : k ≤ 3800) : 65520 + 65520 * k + 255 * k * (k + 1) / 2 ≤ 2090626020 := by
  have hsq : k * (k + 1) ≤ 3800 * 3801 := Nat.mul_le_mul h (by omega)
  rw [Nat.mul_assoc 255]
  omega

/-- A run's reduction leaves both sums below 65521 (R52). -/
theorem reduce_le (r : Sums 32) : r.reduce.rs1.toNat ≤ 65520 ∧ r.reduce.rs2.toNat ≤ 65520 := by
  obtain ⟨h1, h2⟩ := Sums.reduce_toNat neverWraps_reduced r
  rw [h1, h2]
  exact ⟨Nat.le_of_lt_succ (Nat.mod_lt _ (by decide)), Nat.le_of_lt_succ (Nat.mod_lt _ (by decide))⟩

end Sys2Proof.Machine
end

section
/-! SUPPORT. R58's condition as a bound on the run length. -/

namespace Sys2Proof.Machine

/-- The largest that `RS2` can be after a run of `batch` bytes from reduced sums (R52, R58). -/
def runBound (batch : Nat) : Nat := 65520 * (batch + 1) + 255 * batch * (batch + 1) / 2

theorem runBound_monotone : Monotone runBound := by
  intro m n h
  have hsq : 255 * m * (m + 1) ≤ 255 * n * (n + 1) := Nat.mul_le_mul (by omega) (by omega)
  unfold runBound
  omega

/-- Because the bound grows, a limit between two run lengths' bounds separates the run lengths. -/
theorem runBound_lt_iff {limit n : Nat} (hn : runBound n < limit) (hn' : limit ≤ runBound (n + 1)) (batch : Nat) :
    runBound batch < limit ↔ batch ≤ n :=
  ⟨fun h => Nat.le_of_lt_succ (runBound_monotone.reflect_lt (h.trans_le hn')),
    fun h => (runBound_monotone h).trans_lt hn⟩

/-- R58's condition keeps every add from wrapping. -/
theorem neverWraps_of_runBound {batch w : Nat} (hbatch : 1 ≤ batch) (h : runBound batch ≤ 2 ^ w - 1) :
    NeverWraps batch w 65520 :=
  ⟨hbatch, le_rfl, Nat.lt_of_le_pred (Nat.two_pow_pos w) h⟩

end Sys2Proof.Machine
end

section
/-! THEOREM. The statements about the engine's sums (41_range_engine.md sections 3 and 4). -/

namespace Sys2Proof.Machine

/-- Settles O19: no add of a run wraps, so its sums are the exact ones, which have these bounds. -/
theorem runSumsNeverWrap : Obligations.RunSumsNeverWrap := by
  unfold Obligations.RunSumsNeverWrap
  refine ⟨fun acc h => ?_, fun buf k i r r' h1 h2 hk hrun => ?_⟩
  · obtain ⟨hrs1, hrs2⟩ := Sums.Holds.ofAcc neverWraps_reduced acc
    obtain ⟨hlow, hhigh⟩ := h.halvesAtMost (bound := 65520) le_rfl
    exact ⟨hrs1, hrs1.trans_le hlow, hrs2, hrs2.trans_le hhigh⟩
  · have hexact := sumRun_eq_exactSums h1 h2 hk hrun
    obtain ⟨hrs1, hrs2⟩ := Prod.mk.inj hexact
    obtain ⟨hle1, hle2⟩ := exactSums_slice_le buf i k h1 h2
    rw [← hrs1] at hle1
    rw [← hrs2] at hle2
    exact ⟨hexact, hle1, hle2, by omega, hle2.trans (sumBound_le hk), reduce_le r'⟩

/-- Settles O20: the first sum at its bound forces the start, the length and the bytes, and then the second forces its
start. -/
theorem runBoundsReachedExactly : Obligations.RunBoundsReachedExactly := by
  unfold Obligations.RunBoundsReachedExactly
  intro buf k i r r' h1 h2 hk hrun
  obtain ⟨hrs1, hrs2⟩ := Prod.mk.inj (sumRun_eq_exactSums h1 h2 hk hrun)
  have hlen : (buf.slice i k).length = k := slice_length buf i k
  constructor
  · rintro ⟨hmax1, hmax2⟩
    have hle := exactSums_fst_le r.rs1.toNat r.rs2.toNat (buf.slice i k)
    rw [hlen] at hle
    obtain rfl : k = 3800 := by omega
    have hs1 : r.rs1.toNat = 65520 := by omega
    have hones : ∀ b ∈ buf.slice i 3800, b = 0xFF#8 := by
      apply eq_ones_of_le_exactSums_fst (s1 := r.rs1.toNat) (s2 := r.rs2.toNat)
      rw [hlen]
      omega
    obtain ⟨-, hsnd⟩ := exactSums_of_ones r.rs1.toNat r.rs2.toNat hones
    rw [hlen, hs1] at hsnd
    rw [hs1] at hrs2
    exact ⟨hs1, by omega, rfl, hones⟩
  · rintro ⟨hs1, hs2, rfl, hones⟩
    obtain ⟨hfst, hsnd⟩ := exactSums_of_ones r.rs1.toNat r.rs2.toNat hones
    rw [hlen] at hfst hsnd
    rw [hs1, hs2] at hsnd hrs2
    constructor <;> omega

/-- Settles O21: both engines fold the updater over the range; and R58's bound grows with the run length. -/
theorem otherEnginesAgree : Obligations.OtherEnginesAgree := by
  unfold Obligations.OtherEnginesAgree
  refine ⟨fun batch w buf acc offset count hbatch hbound hacc hp hend => ?_, by decide, fun batch => ?_,
    fun batch => ?_⟩
  · rw [engineWith_eq_foldUpd (neverWraps_of_runBound hbatch hbound) hp hend (hacc.halvesAtMost le_rfl),
      engine_eq_foldUpd acc hp hend]
  · have h := runBound_lt_iff (limit := 2 ^ 32) (n := 5552) (by decide) (by decide) batch
    exact Nat.le_sub_one_iff_lt (by decide) |>.trans h
  · exact runBound_lt_iff (limit := 2 ^ 31) (n := 3854) (by decide) (by decide) batch

end Sys2Proof.Machine
end
